-- ==== Sys2Proof/Word.lean ====
section
/-! DEFINITION. The widths of the hardware's values (00_scope.md R5, R8). -/

namespace Sys2Proof

/-- A V register, a memory cell, a timer, an immediate `kk`. -/
abbrev Byte := BitVec 8

/-- An instruction word, `I`, `pc`, a stack entry. -/
abbrev Word := BitVec 16

/-- The 12-bit address field `nnn` of an instruction word. -/
abbrev Addr := BitVec 12

/-- The index of a V register, 0 to 15 (10_state.md R20): a name, not a number the machine computes with. -/
abbrev Reg := Fin 16

/-- The index 0xF of the flag output VF (10_state.md R21). -/
abbrev Reg.vf : Reg := 15

end Sys2Proof
end

