-- ==== Sys2Proof/Syntax.lean ====
section
/-! DEFINITION. The 34 instructions, one constructor for each row of the opcode map (30_encoding.md R96), in its
order, with the operand fields of R91. -/

namespace Sys2Proof

/-- An instruction of base CHIP-8. -/
inductive Instr where
  /-- `00E0` CLS (R220) -/
  | cls
  /-- `00EE` RET (R150) -/
  | ret
  /-- `1nnn` JP nnn (R151) -/
  | jp (nnn : Addr)
  /-- `2nnn` CALL nnn (R152) -/
  | call (nnn : Addr)
  /-- `3xkk` SE Vx, kk (R155) -/
  | seImm (x : Reg) (kk : Byte)
  /-- `4xkk` SNE Vx, kk (R156) -/
  | sneImm (x : Reg) (kk : Byte)
  /-- `5xy0` SE Vx, Vy (R157) -/
  | seReg (x y : Reg)
  /-- `6xkk` LD Vx, kk (R170) -/
  | ldImm (x : Reg) (kk : Byte)
  /-- `7xkk` ADD Vx, kk (R171) -/
  | addImm (x : Reg) (kk : Byte)
  /-- `8xy0` LD Vx, Vy (R172) -/
  | ldReg (x y : Reg)
  /-- `8xy1` OR Vx, Vy (R173) -/
  | orReg (x y : Reg)
  /-- `8xy2` AND Vx, Vy (R174) -/
  | andReg (x y : Reg)
  /-- `8xy3` XOR Vx, Vy (R175) -/
  | xorReg (x y : Reg)
  /-- `8xy4` ADD Vx, Vy (R176) -/
  | addReg (x y : Reg)
  /-- `8xy5` SUB Vx, Vy (R177) -/
  | subReg (x y : Reg)
  /-- `8xy6` SHR Vx (R178); `y` is decoded and ignored -/
  | shr (x y : Reg)
  /-- `8xy7` SUBN Vx, Vy (R179) -/
  | subnReg (x y : Reg)
  /-- `8xyE` SHL Vx (R180); `y` is decoded and ignored -/
  | shl (x y : Reg)
  /-- `9xy0` SNE Vx, Vy (R158) -/
  | sneReg (x y : Reg)
  /-- `Annn` LD I, nnn (R200) -/
  | ldI (nnn : Addr)
  /-- `Bnnn` JP V0, nnn (R154) -/
  | jpV0 (nnn : Addr)
  /-- `Cxkk` RND Vx, kk (R181) -/
  | rnd (x : Reg) (kk : Byte)
  /-- `Dxyn` DRW Vx, Vy, n (R221); `n` counts sprite rows, 0 to 15 -/
  | drw (x y : Reg) (n : Fin 16)
  /-- `Ex9E` SKP Vx (R230) -/
  | skp (x : Reg)
  /-- `ExA1` SKNP Vx (R231) -/
  | sknp (x : Reg)
  /-- `Fx07` LD Vx, DT (R233) -/
  | ldVxDT (x : Reg)
  /-- `Fx0A` LD Vx, K (R232) -/
  | ldVxK (x : Reg)
  /-- `Fx15` LD DT, Vx (R234) -/
  | ldDTVx (x : Reg)
  /-- `Fx18` LD ST, Vx (R235) -/
  | ldSTVx (x : Reg)
  /-- `Fx1E` ADD I, Vx (R201) -/
  | addI (x : Reg)
  /-- `Fx29` LD F, Vx (R202) -/
  | ldF (x : Reg)
  /-- `Fx33` LD B, Vx (R203) -/
  | ldB (x : Reg)
  /-- `Fx55` LD [I], Vx (R204) -/
  | storeRegs (x : Reg)
  /-- `Fx65` LD Vx, [I] (R205) -/
  | loadRegs (x : Reg)
deriving DecidableEq, Repr

/-- The number of an instruction's row in the opcode map, 1 to 34 (30_encoding.md R95, R96). -/
def Instr.kind : Instr → Nat
  | .cls => 1
  | .ret => 2
  | .jp _ => 3
  | .call _ => 4
  | .seImm _ _ => 5
  | .sneImm _ _ => 6
  | .seReg _ _ => 7
  | .ldImm _ _ => 8
  | .addImm _ _ => 9
  | .ldReg _ _ => 10
  | .orReg _ _ => 11
  | .andReg _ _ => 12
  | .xorReg _ _ => 13
  | .addReg _ _ => 14
  | .subReg _ _ => 15
  | .shr _ _ => 16
  | .subnReg _ _ => 17
  | .shl _ _ => 18
  | .sneReg _ _ => 19
  | .ldI _ => 20
  | .jpV0 _ => 21
  | .rnd _ _ => 22
  | .drw _ _ _ => 23
  | .skp _ => 24
  | .sknp _ => 25
  | .ldVxDT _ => 26
  | .ldVxK _ => 27
  | .ldDTVx _ => 28
  | .ldSTVx _ => 29
  | .addI _ => 30
  | .ldF _ => 31
  | .ldB _ => 32
  | .storeRegs _ => 33
  | .loadRegs _ => 34

end Sys2Proof
end

