-- ==== Sys2Proof/Decode.lean ====
section
/-! DEFINITION. The instruction decoder (30_encoding.md), the opcode map it follows, and the encoder. -/

namespace Sys2Proof

/-- Why bytes are not an instruction. -/
inductive DecodeError where
  /-- The word matches no row of the opcode map: `UNKNOWN` (30_encoding.md R98). -/
  | unknown (w : Word)
  /-- Fewer than the two bytes of an instruction word (30_encoding.md R90). -/
  | truncated (bytes : List Byte)
deriving DecidableEq, Repr

/-! ### The fields of a word (R91) -/

/-- `op` = w[15:12], the family. -/
def opField (w : Word) : Fin 16 := (w.extractLsb' 12 4).toFin

/-- `x` = w[11:8]. -/
def xField (w : Word) : Reg := (w.extractLsb' 8 4).toFin

/-- `y` = w[7:4]. -/
def yField (w : Word) : Reg := (w.extractLsb' 4 4).toFin

/-- `n` = w[3:0]: a count, or the sub-opcode of families 5, 8 and 9. -/
def nField (w : Word) : Fin 16 := (w.extractLsb' 0 4).toFin

/-- `kk` = w[7:0]: an immediate, or the sub-opcode of families E and F. -/
def kkField (w : Word) : Byte := w.extractLsb' 0 8

/-- `nnn` = w[11:0]. -/
def nnnField (w : Word) : Addr := w.extractLsb' 0 12

/-! ### The decoder, family by family (R97) -/

/-- Family 0 is matched on the whole word. -/
def decodeFixed (w : Word) : Except DecodeError Instr :=
  if w = 0x00E0#16 then .ok .cls
  else if w = 0x00EE#16 then .ok .ret
  else .error (.unknown w)

/-- Families 5 and 9 require a zero low nibble. -/
def decodeSkipReg (w : Word) (i : Instr) : Except DecodeError Instr :=
  if nField w = 0 then .ok i else .error (.unknown w)

/-- Family 8 dispatches on the low nibble. -/
def decodeAlu (w : Word) : Except DecodeError Instr :=
  match nField w with
  | 0x0 => .ok (.ldReg (xField w) (yField w))
  | 0x1 => .ok (.orReg (xField w) (yField w))
  | 0x2 => .ok (.andReg (xField w) (yField w))
  | 0x3 => .ok (.xorReg (xField w) (yField w))
  | 0x4 => .ok (.addReg (xField w) (yField w))
  | 0x5 => .ok (.subReg (xField w) (yField w))
  | 0x6 => .ok (.shr (xField w) (yField w))
  | 0x7 => .ok (.subnReg (xField w) (yField w))
  | 0xE => .ok (.shl (xField w) (yField w))
  | _ => .error (.unknown w)

/-- Family E dispatches on the low byte. -/
def decodeKey (w : Word) : Except DecodeError Instr :=
  if kkField w = 0x9E#8 then .ok (.skp (xField w))
  else if kkField w = 0xA1#8 then .ok (.sknp (xField w))
  else .error (.unknown w)

/-- Family F dispatches on the low byte. -/
def decodeMisc (w : Word) : Except DecodeError Instr :=
  if kkField w = 0x07#8 then .ok (.ldVxDT (xField w))
  else if kkField w = 0x0A#8 then .ok (.ldVxK (xField w))
  else if kkField w = 0x15#8 then .ok (.ldDTVx (xField w))
  else if kkField w = 0x18#8 then .ok (.ldSTVx (xField w))
  else if kkField w = 0x1E#8 then .ok (.addI (xField w))
  else if kkField w = 0x29#8 then .ok (.ldF (xField w))
  else if kkField w = 0x33#8 then .ok (.ldB (xField w))
  else if kkField w = 0x55#8 then .ok (.storeRegs (xField w))
  else if kkField w = 0x65#8 then .ok (.loadRegs (xField w))
  else .error (.unknown w)

/-- The decoder: a pure, total function of the word alone (R94, R97). The last arm is family F, the one family nibble
the others leave. -/
def decode (w : Word) : Except DecodeError Instr :=
  match opField w with
  | 0x0 => decodeFixed w
  | 0x1 => .ok (.jp (nnnField w))
  | 0x2 => .ok (.call (nnnField w))
  | 0x3 => .ok (.seImm (xField w) (kkField w))
  | 0x4 => .ok (.sneImm (xField w) (kkField w))
  | 0x5 => decodeSkipReg w (.seReg (xField w) (yField w))
  | 0x6 => .ok (.ldImm (xField w) (kkField w))
  | 0x7 => .ok (.addImm (xField w) (kkField w))
  | 0x8 => decodeAlu w
  | 0x9 => decodeSkipReg w (.sneReg (xField w) (yField w))
  | 0xA => .ok (.ldI (nnnField w))
  | 0xB => .ok (.jpV0 (nnnField w))
  | 0xC => .ok (.rnd (xField w) (kkField w))
  | 0xD => .ok (.drw (xField w) (yField w) (nField w))
  | 0xE => decodeKey w
  | _ => decodeMisc w

/-- `kind` of a word, the decoder's output as a number: 0 for `UNKNOWN`, and 1 to 34 for the instructions (R95; the
numbers are the spec's decision D24, log entry 26). -/
def kindOf (w : Word) : Nat :=
  match decode w with
  | .ok i => i.kind
  | .error _ => 0

/-- The word of two bytes in memory order: the first, at the lower address, is the high half
(20_memory.md R68; log entry 10). -/
def wordOfBytes (hi lo : Byte) : Word := hi ++ lo

/-- The high half of a word, the byte at the lower address. -/
def highByte (w : Word) : Byte := w.extractLsb' 8 8

/-- The low half of a word, the byte at the higher address. -/
def lowByte (w : Word) : Byte := w.extractLsb' 0 8

/-- The decoder on any bytes: the instruction at their front and the bytes after it. -/
def decodeBytes : List Byte → Except DecodeError (Instr × List Byte)
  | hi :: lo :: rest =>
    match decode (wordOfBytes hi lo) with
    | .ok i => .ok (i, rest)
    | .error e => .error e
  | short => .error (.truncated short)

/-! ### The opcode map as a table (R96) -/

/-- A row: a word `w` is of this row when `w &&& mask = pattern`. -/
structure OpcodeRow where
  /-- `id` of the row, the number of the instruction's kind. -/
  id : Nat
  /-- `mask` -/
  mask : Word
  /-- `match` -/
  pattern : Word
deriving DecidableEq, Repr

/-- Whether a word is of a row. -/
def OpcodeRow.accepts (r : OpcodeRow) (w : Word) : Bool := w &&& r.mask == r.pattern

/-- Rows of families 0 to 7. -/
def opcodeRowsLow : List OpcodeRow :=
  [⟨1, 0xFFFF, 0x00E0⟩, ⟨2, 0xFFFF, 0x00EE⟩, ⟨3, 0xF000, 0x1000⟩, ⟨4, 0xF000, 0x2000⟩,
   ⟨5, 0xF000, 0x3000⟩, ⟨6, 0xF000, 0x4000⟩, ⟨7, 0xF00F, 0x5000⟩, ⟨8, 0xF000, 0x6000⟩,
   ⟨9, 0xF000, 0x7000⟩]

/-- Rows of families 8 and 9. -/
def opcodeRowsAlu : List OpcodeRow :=
  [⟨10, 0xF00F, 0x8000⟩, ⟨11, 0xF00F, 0x8001⟩, ⟨12, 0xF00F, 0x8002⟩, ⟨13, 0xF00F, 0x8003⟩,
   ⟨14, 0xF00F, 0x8004⟩, ⟨15, 0xF00F, 0x8005⟩, ⟨16, 0xF00F, 0x8006⟩, ⟨17, 0xF00F, 0x8007⟩,
   ⟨18, 0xF00F, 0x800E⟩, ⟨19, 0xF00F, 0x9000⟩]

/-- Rows of families A to F. -/
def opcodeRowsHigh : List OpcodeRow :=
  [⟨20, 0xF000, 0xA000⟩, ⟨21, 0xF000, 0xB000⟩, ⟨22, 0xF000, 0xC000⟩, ⟨23, 0xF000, 0xD000⟩,
   ⟨24, 0xF0FF, 0xE09E⟩, ⟨25, 0xF0FF, 0xE0A1⟩, ⟨26, 0xF0FF, 0xF007⟩, ⟨27, 0xF0FF, 0xF00A⟩,
   ⟨28, 0xF0FF, 0xF015⟩, ⟨29, 0xF0FF, 0xF018⟩, ⟨30, 0xF0FF, 0xF01E⟩, ⟨31, 0xF0FF, 0xF029⟩,
   ⟨32, 0xF0FF, 0xF033⟩, ⟨33, 0xF0FF, 0xF055⟩, ⟨34, 0xF0FF, 0xF065⟩]

/-- The 34 rows of the opcode map. -/
def opcodeTable : List OpcodeRow := opcodeRowsLow ++ opcodeRowsAlu ++ opcodeRowsHigh

/-! ### The encoder, format by format (R92) -/

/-- Format NNN: a family nibble and an address. -/
def wordNNN (op : BitVec 4) (nnn : Addr) : Word := op ++ nnn

/-- Formats XKK and XSS: a family nibble, `x`, and an immediate or sub-opcode byte. -/
def wordXKK (op : BitVec 4) (x : Reg) (kk : Byte) : Word := op ++ (BitVec.ofFin (w := 4) x ++ kk : Addr)

/-- Formats XYS and XYN: a family nibble, `x`, `y`, and a sub-opcode or count nibble. -/
def wordXYN (op : BitVec 4) (x y : Reg) (n : Fin 16) : Word :=
  wordXKK op x (BitVec.ofFin (w := 4) y ++ BitVec.ofFin (w := 4) n : Byte)

/-- The word of an instruction (R92, R96). -/
def encode : Instr → Word
  | .cls => 0x00E0#16
  | .ret => 0x00EE#16
  | .jp nnn => wordNNN 0x1 nnn
  | .call nnn => wordNNN 0x2 nnn
  | .seImm x kk => wordXKK 0x3 x kk
  | .sneImm x kk => wordXKK 0x4 x kk
  | .seReg x y => wordXYN 0x5 x y 0x0
  | .ldImm x kk => wordXKK 0x6 x kk
  | .addImm x kk => wordXKK 0x7 x kk
  | .ldReg x y => wordXYN 0x8 x y 0x0
  | .orReg x y => wordXYN 0x8 x y 0x1
  | .andReg x y => wordXYN 0x8 x y 0x2
  | .xorReg x y => wordXYN 0x8 x y 0x3
  | .addReg x y => wordXYN 0x8 x y 0x4
  | .subReg x y => wordXYN 0x8 x y 0x5
  | .shr x y => wordXYN 0x8 x y 0x6
  | .subnReg x y => wordXYN 0x8 x y 0x7
  | .shl x y => wordXYN 0x8 x y 0xE
  | .sneReg x y => wordXYN 0x9 x y 0x0
  | .ldI nnn => wordNNN 0xA nnn
  | .jpV0 nnn => wordNNN 0xB nnn
  | .rnd x kk => wordXKK 0xC x kk
  | .drw x y n => wordXYN 0xD x y n
  | .skp x => wordXKK 0xE x 0x9E
  | .sknp x => wordXKK 0xE x 0xA1
  | .ldVxDT x => wordXKK 0xF x 0x07
  | .ldVxK x => wordXKK 0xF x 0x0A
  | .ldDTVx x => wordXKK 0xF x 0x15
  | .ldSTVx x => wordXKK 0xF x 0x18
  | .addI x => wordXKK 0xF x 0x1E
  | .ldF x => wordXKK 0xF x 0x29
  | .ldB x => wordXKK 0xF x 0x33
  | .storeRegs x => wordXKK 0xF x 0x55
  | .loadRegs x => wordXKK 0xF x 0x65

/-- The bytes of an instruction in memory order (R90). -/
def encodeBytes (i : Instr) : List Byte := [highByte (encode i), lowByte (encode i)]

/-- The word whose bits the opcode table numbers: bit 0 is the least significant bit of the word, and bits from
`nbits` up are zero. -/
def tableWord (nbits w : Nat) : Word := BitVec.ofNat 16 (w % 2 ^ nbits)

/-- What the decoder reads from a table row's word laid out as the hardware stores it. -/
def decodeTableWord (nbits w : Nat) : Option Instr :=
  match decodeBytes [highByte (tableWord nbits w), lowByte (tableWord nbits w)] with
  | .ok (i, _) => some i
  | .error _ => none

end Sys2Proof
end

