-- ==== Sys2Proof/Config.lean ====
section
/-! DEFINITION. The fixed parameters of the hardware (00_scope.md R5) and its free values (R6).
The one open parameter with a default, `FONT_TABLE`, stands in Machine/Memory.lean. -/

namespace Sys2Proof.Config

/-- `MEM_SIZE`: addresses 0x000 to 0xFFF. -/
abbrev memSize : Nat := 4096

/-- `PROG_BASE`: where the image is loaded, and the reset value of `pc`. -/
abbrev progBase : Nat := 0x200

/-- `PROG_MAX`: the largest image. -/
abbrev progMax : Nat := 3584

/-- `FONT_BASE`: where the glyphs start. -/
abbrev fontBase : Nat := 0x050

/-- `FONT_BYTES`: 16 glyphs of 5 bytes. -/
abbrev fontBytes : Nat := 80

/-- `STACK_DEPTH`: the capacity of the call stack. -/
abbrev stackDepth : Nat := 16

/-- `FB_W`: pixels in a row. -/
abbrev fbWidth : Nat := 64

/-- `FB_H`: rows. -/
abbrev fbHeight : Nat := 32

/-- The free byte of `RandomByte()` (00_scope.md R6, R9, 42_alu.md R181), one for each draw: nothing constrains it.
A free value, log entry 3; a claim about it holds for every sequence of bytes. -/
opaque freeRandomByte : Nat → Byte

end Sys2Proof.Config
end

