-- ==== Sys2Proof/WellFormed.lean ====
section
/-! DEFINITION. What may be given to the machine: an instruction, and a program image.

An instruction has no further check: "Within an instruction no field value is reserved: every `x`, `y`, `kk`,
`nnn`, `n` is legal for decoding" (30_encoding.md R100), and the width of each field is its type. The one check the
spec makes on what is given to the machine is the length of the program image (20_memory.md R67,
70_reset_and_hazards.md R282). -/

namespace Sys2Proof

/-- Every instruction is well formed: its fields' types are their widths (30_encoding.md R93, R100). -/
def Instr.wellFormed (_ : Instr) : Bool := true

/-- A program image: the bytes laid down from 0x200 at reset (20_memory.md R67). -/
abbrev Image := List Byte

/-- The load check of reset: at most 3584 bytes, none is legal (70_reset_and_hazards.md R282). -/
def Image.wellFormed (image : Image) : Bool := decide (image.length ≤ Config.progMax)

end Sys2Proof
end

