-- ==== Sys2Proof/Machine/State.lean ====
section
/-! DEFINITION. The state of the machine (10_state.md), the three outcomes of a step, and the state after reset. -/

namespace Sys2Proof.Machine

/-- The memory (20_memory.md R60): the bytes that differ from the reset contents, addresses strictly rising.
An unlisted address reads as `resetByte` (Machine/Memory.lean), so equal memories are equal lists; log entry 6. -/
abbrev Memory := List Host.Cell

/-- The framebuffer (10_state.md R32): 32 rows, top first, each of 64 one-bit pixels; pixel `x` of a row is its
bit `x`. -/
abbrev Framebuffer := Vector (BitVec 64) 32

/-- The run status (10_state.md R35). -/
inductive Status where
  /-- The engine executes cycles. -/
  | running
  /-- A fatal error was taken; terminal until reset. -/
  | faulted
  /-- The halt request was honoured; terminal until reset. -/
  | stopped
deriving DecidableEq, Repr

/-- The causes of a fatal error (60_exceptions.md R250). -/
inductive ErrCause where
  /-- 0: no error since reset -/
  | none
  /-- 1: the fetched word is no instruction (R252) -/
  | unknownInstruction
  /-- 2: the program counter references no instruction (R251) -/
  | fetchFault
  /-- 3: a call with sixteen calls live (R253) -/
  | stackOverflow
  /-- 4: a return with no call live (R253) -/
  | stackUnderflow
  /-- 5: a data address above 0xFFF (R253) -/
  | memRangeFault
  /-- 6: a key index above 15 (R253) -/
  | keyIndexFault
deriving DecidableEq, Repr

/-- The classes of an error (60_exceptions.md R250). -/
inductive ErrClass where
  /-- 0: no error -/
  | none
  /-- 1: load; never recorded, since no machine exists after a load error (R264) -/
  | load
  /-- 2: decode -/
  | decode
  /-- 3: bounds -/
  | bounds
deriving DecidableEq, Repr

/-- The error record (10_state.md R36). -/
structure ErrorRecord where
  /-- `err_cause` -/
  cause : ErrCause
  /-- `err_class` -/
  cls : ErrClass
  /-- `err_word`: the offending word -/
  word : Word
  /-- `err_pc`: the address of the instruction that faulted -/
  pc : Word
deriving DecidableEq, Repr

/-- The error record of a machine that has taken no error. -/
def ErrorRecord.zero : ErrorRecord := ⟨.none, .none, 0x0000, 0x0000⟩

/-- The levels of the sixteen keys, `true` when pressed (10_state.md R41). -/
abbrev Keys := Vector Bool 16

/-- A coming step of an agent (00_scope.md R7). -/
inductive Event where
  /-- the engine runs one cycle (40_fetch_cycle.md R130) -/
  | cycle
  /-- one 60 Hz tick (40_fetch_cycle.md R137) -/
  | tick
  /-- the host clears `redraw` (10_state.md R33) -/
  | redrawClear
  /-- the host changes the key levels (10_state.md R41) -/
  | setKeys (keys : Keys)
  /-- the host puts a byte on port `rand` for a coming draw (10_state.md R40) -/
  | offerRandom (r : Byte)
  /-- the host changes the level of `halt_req` (60_exceptions.md R258) -/
  | setHalt (level : Bool)
  /-- the host resets the machine with a program image (70_reset_and_hazards.md R280) -/
  | reset (image : Image)
deriving DecidableEq, Repr

/-- The model's own fields: the input side of the ports (10_state.md R40) and what the other agents do next.
None of it is state of the CORE (R41); log entries 1 to 3. -/
structure Env where
  /-- the levels on port `key[0..15]` -/
  keys : Keys
  /-- the level on port `halt_req` -/
  haltReq : Bool
  /-- the bytes put on port `rand` for the coming draws, oldest first; when there is none the draw is free -/
  rand : List Byte
  /-- how many free draws were made: the argument of the next free byte -/
  draws : Nat
  /-- the steps due, next first; with none due the engine runs its next cycle -/
  agenda : List Event
deriving DecidableEq, Repr

/-- The whole state (10_state.md section 1), and the environment beside it. -/
structure State where
  /-- `V[0]` to `V[15]` (R20) -/
  V : Vector Byte 16
  /-- the address register `I` (R23) -/
  I : Word
  /-- the program counter (R24) -/
  pc : Word
  /-- the call stack's entries, `stack[0]` the oldest (R28) -/
  stack : Vector Word 16
  /-- the number of entries in use, 0 to 16 (R28) -/
  sp : Fin 17
  /-- the delay timer (R31) -/
  DT : Byte
  /-- the sound timer (R31) -/
  ST : Byte
  /-- the framebuffer (R32) -/
  fb : Framebuffer
  /-- the redraw flag (R33) -/
  redraw : Bool
  /-- the run status (R35) -/
  status : Status
  /-- the error record (R36) -/
  err : ErrorRecord
  /-- the memory (20_memory.md R60) -/
  mem : Memory
  /-- the ports and the agenda -/
  env : Env
deriving DecidableEq, Repr

/-- Why a step can leave no machine. -/
inductive Fault where
  /-- Raised by a reset whose image is longer than 3584 bytes, never by the engine: "VM is not constructed"
  (60_exceptions.md R264, 70_reset_and_hazards.md R282). Safe: there is no state to go on from. -/
  | loadError
deriving DecidableEq, Repr

/-- Why a step can have no meaning. -/
inductive Refusal where
  /-- Raised by an arm of `exec` whose instruction has no meaning yet; none is left. Safe: nothing can be proved of
  what follows. -/
  | notModelled (mnemonic : String)
deriving DecidableEq, Repr

/-- What a step answers. -/
abbrev Result := Host.Outcome State Fault Refusal

/-- The environment right after power-on: no key pressed, no halt request, nothing offered, nothing due
(log entry 2). -/
def Env.reset : Env :=
  ⟨Vector.replicate 16 false, false, [], 0, []⟩

/-- The machine right after reset with the empty image (70_reset_and_hazards.md R280, R281). The document gives
`pc`, `sp` and the memory; the zeros of the other fields are the spec's decision D2, log entry 4. -/
def State.reset : State :=
  ⟨Vector.replicate 16 0x00, 0x0000, 0x0200, Vector.replicate 16 0x0000, 0, 0x00, 0x00,
   Vector.replicate 32 0, false, .running, .zero, [], .reset⟩

end Sys2Proof.Machine
end

