-- ==== Sys2Proof/Machine/Operands.lean ====
section
/-! DEFINITION. Operand forms: registers, immediates, the program counter, effective addresses
(00_scope.md R9, R10, 30_encoding.md R93). -/

namespace Sys2Proof.Machine

/-- `V[x]`. -/
def State.getV (s : State) (x : Reg) : Byte := s.V[x]

/-- `V[x] <- v`. -/
def State.setV (s : State) (x : Reg) (v : Byte) : State := { s with V := s.V.set x v }

/-- `zext_16(nnn)` (30_encoding.md R93). -/
def zextAddr (nnn : Addr) : Word := nnn.setWidth 16

/-- `zext_16(v)` of a byte (30_encoding.md R93). -/
def zextByte (v : Byte) : Word := v.setWidth 16

/-- `I <- v`. -/
def State.setI (s : State) (v : Word) : State := { s with I := v }

/-- `pc <- target`; the target is not checked here (10_state.md R25). -/
def State.jumpTo (s : State) (target : Word) : State := { s with pc := target }

/-- `pc <- pc + 2` (10_state.md R26). -/
def State.advance (s : State) : State := s.jumpTo (s.pc + 2)

/-- `pc <- pc + 4` when the condition holds, else `pc + 2` (10_state.md R26, 40_fetch_cycle.md R134). -/
def State.skipIf (s : State) (cond : Bool) : State := s.jumpTo (if cond then s.pc + 4 else s.pc + 2)

/-- The effective address `I + k`: a natural number, never reduced (00_scope.md R10). -/
def State.ea (s : State) (k : Nat) : Nat := s.I.toNat + k

/-- `V[0]` to `V[x]`, in order (10_state.md R22). -/
def State.regsUpTo (s : State) (x : Reg) : List Byte := s.V.toList.take (x.val + 1)

/-- Bytes put into consecutive registers from index `k` up. -/
def putRegs (V : Vector Byte 16) (k : Nat) : List Byte → Vector Byte 16
  | [] => V
  | v :: vs => putRegs (V.setIfInBounds k v) (k + 1) vs

/-- The registers from `V[0]` up receive the bytes, in order. -/
def State.loadV (s : State) (bytes : List Byte) : State := { s with V := putRegs s.V 0 bytes }

/-- `Key(k)` (10_state.md R41). -/
def State.key (s : State) (k : Fin 16) : Bool := s.env.keys[k]

/-- The smallest pressed key, if any (45_keys_timers.md R232; log entry 13). -/
def State.firstKey (s : State) : Option (Fin 16) := (List.finRange 16).find? s.key

/-- A key's index as a byte. -/
def keyByte (k : Fin 16) : Byte := BitVec.ofNat 8 k.val

end Sys2Proof.Machine
end

