-- ==== Sys2Proof/Machine/Flags.lean ====
section
/-! DEFINITION. The results and the flags of the ALU (42_alu.md) and the write of VF, the one flag (10_state.md R21,
R38). -/

namespace Sys2Proof.Machine

/-- A flag's value as VF holds it: 0x00 or 0x01 (10_state.md R21). -/
def flagByte (f : Bool) : Byte := if f then 0x01 else 0x00

/-- `V[0xF] <- flag` (10_state.md R21). -/
def State.setVF (s : State) (f : Bool) : State := s.setV Reg.vf (flagByte f)

/-- Carry out of bit 7 of `a + b` (42_alu.md R176). -/
def carryOut (a b : Byte) : Bool := decide (255 < a.toNat + b.toNat)

/-- No borrow was needed for `a - b`; equal operands need none (42_alu.md R177). -/
def notBorrow (a b : Byte) : Bool := decide (b.toNat ≤ a.toNat)

/-- The bit a right shift pushes out (42_alu.md R178). -/
def lowBit (a : Byte) : Bool := a.getLsbD 0

/-- The bit a left shift pushes out (42_alu.md R180). -/
def highBit (a : Byte) : Bool := a.getLsbD 7

/-- `V[x] <- r; pc <- pc + 2`: the instructions that write no flag (42_alu.md R182). -/
def State.writeResult (s : State) (x : Reg) (r : Byte) : State := (s.setV x r).advance

/-- `V[x] <- r; V[0xF] <- f; pc <- pc + 2`: the flag is written last (42_alu.md R183; log entry 14). -/
def State.writeResultFlag (s : State) (x : Reg) (r : Byte) (f : Bool) : State := ((s.setV x r).setVF f).advance

end Sys2Proof.Machine
end

