-- ==== Sys2Proof/Machine/Ops.lean ====
section
/-! DEFINITION. The shared operations: data accesses, the call stack, the random byte, instruction fetch, taking a
fatal error. There is no return from one (60_exceptions.md R259). -/

namespace Sys2Proof.Machine

/-! ### Data accesses -/

/-- No byte of an access of `n` bytes lies above 0xFFF (20_memory.md R70, R71). -/
def rangeOk (a n : Nat) : Bool := decide (n = 0 ∨ a + n - 1 ≤ 0xFFF)

/-- `MemRead(a, n)`: nothing when it raises `MemRangeFault` (20_memory.md R70). -/
def State.memRead (s : State) (a n : Nat) : Option (List Byte) :=
  if rangeOk a n then some (s.mem.readBytes a n) else none

/-- `MemWrite` of consecutive bytes: nothing when it raises `MemRangeFault`, which is checked over the whole range
before the first byte is written (20_memory.md R71). -/
def State.memWrite (s : State) (a : Nat) (bytes : List Byte) : Option State :=
  if rangeOk a bytes.length then some { s with mem := s.mem.writeBytes a bytes } else none

/-! ### The call stack -/

/-- `StackPush(v)`: nothing when it raises `StackOverflow` (10_state.md R29). -/
def State.push (s : State) (v : Word) : Option State :=
  if h : s.sp.val < 16 then some { s with stack := s.stack.set s.sp.val v, sp := ⟨s.sp.val + 1, by omega⟩ }
  else none

/-- `StackPop()`: the popped entry and the state after, or nothing when it raises `StackUnderflow`
(10_state.md R30). -/
def State.pop (s : State) : Option (Word × State) :=
  if h : 0 < s.sp.val then
    some (s.stack[s.sp.val - 1]'(by have := s.sp.isLt; omega),
      { s with sp := ⟨s.sp.val - 1, by have := s.sp.isLt; omega⟩ })
  else none

/-! ### The random byte -/

/-- The value of `RandomByte()`: the byte the host has put on port `rand`, or a free value (00_scope.md R6, R9;
log entry 3). -/
def State.randomByte (s : State) : Byte := s.env.rand.headD (Config.freeRandomByte s.env.draws)

/-- The environment after a draw: the byte is used up, and a free one is not drawn again. -/
def Env.drawn (e : Env) : Env :=
  match e.rand with
  | [] => { e with draws := e.draws + 1 }
  | _ :: rest => { e with rand := rest }

/-- The state after a draw. -/
def State.drawn (s : State) : State := { s with env := s.env.drawn }

/-! ### Fetch -/

/-- The check of the program counter: even, and both bytes inside 0x200 to 0xFFF (10_state.md R25). -/
def pcLegal (pc : Word) : Bool := decide (pc.toNat % 2 = 0 ∧ 0x200 ≤ pc.toNat ∧ pc.toNat ≤ 0xFFE)

/-- The word at an address, high byte at the lower address (20_memory.md R68). -/
def Memory.wordAt (m : Memory) (a : Nat) : Word := wordOfBytes (m.read a) (m.read (a + 1))

/-- `Fetch(pc)`: nothing when it raises `FetchFault` (20_memory.md R68). -/
def State.fetch (s : State) : Option Word := if pcLegal s.pc then some (s.mem.wordAt s.pc.toNat) else none

/-! ### Fatal errors -/

/-- The class of a cause (60_exceptions.md R250). -/
def ErrCause.cls : ErrCause → ErrClass
  | .none => .none
  | .unknownInstruction => .decode
  | .fetchFault => .decode
  | .stackOverflow => .bounds
  | .stackUnderflow => .bounds
  | .memRangeFault => .bounds
  | .keyIndexFault => .bounds

/-- The code of a cause, 3 bits (60_exceptions.md R250). -/
def ErrCause.code : ErrCause → BitVec 3
  | .none => 0
  | .unknownInstruction => 1
  | .fetchFault => 2
  | .stackOverflow => 3
  | .stackUnderflow => 4
  | .memRangeFault => 5
  | .keyIndexFault => 6

/-- The code of a class, 2 bits (60_exceptions.md R250). -/
def ErrClass.code : ErrClass → BitVec 2
  | .none => 0
  | .load => 1
  | .decode => 2
  | .bounds => 3

/-- Taking a fatal error (60_exceptions.md R254): the record is written, the status becomes `Faulted`, and nothing
else changes, `pc` included. Every check of an instruction comes before its first write (R255), so the state given here
is the one before the cycle. -/
def State.fatal (s : State) (c : ErrCause) (w : Word) : State :=
  { s with status := .faulted, err := ⟨c, c.cls, w, s.pc⟩ }

/-- An instruction ends in a fatal error: a next state, whose recorded word is the instruction's own (log entry 8). -/
def raiseIn (i : Instr) (c : ErrCause) (s : State) : Result := .next (s.fatal c (encode i))

end Sys2Proof.Machine
end

