-- ==== Sys2Proof/Machine/Alu.lean ====
section
/-! DEFINITION. Register loads, ALU operations and the random instruction (42_alu.md). Operands are read before any
write, a flag is written last (R183). -/

namespace Sys2Proof.Machine

/-- `6xkk` LD Vx, kk (R170). -/
def execLdImm (x : Reg) (kk : Byte) (s : State) : Result := .next (s.writeResult x kk)

/-- `7xkk` ADD Vx, kk: modulo 256, no flag (R171). -/
def execAddImm (x : Reg) (kk : Byte) (s : State) : Result := .next (s.writeResult x (s.getV x + kk))

/-- `8xy0` LD Vx, Vy (R172). -/
def execLdReg (x y : Reg) (s : State) : Result := .next (s.writeResult x (s.getV y))

/-- `8xy1` OR Vx, Vy (R173). -/
def execOrReg (x y : Reg) (s : State) : Result := .next (s.writeResult x (s.getV x ||| s.getV y))

/-- `8xy2` AND Vx, Vy (R174). -/
def execAndReg (x y : Reg) (s : State) : Result := .next (s.writeResult x (s.getV x &&& s.getV y))

/-- `8xy3` XOR Vx, Vy (R175). -/
def execXorReg (x y : Reg) (s : State) : Result := .next (s.writeResult x (s.getV x ^^^ s.getV y))

/-- `8xy4` ADD Vx, Vy: VF is the carry; there is no carry in (R176). -/
def execAddReg (x y : Reg) (s : State) : Result :=
  .next (s.writeResultFlag x (s.getV x + s.getV y) (carryOut (s.getV x) (s.getV y)))

/-- `8xy5` SUB Vx, Vy: VF is not-borrow (R177). -/
def execSubReg (x y : Reg) (s : State) : Result :=
  .next (s.writeResultFlag x (s.getV x - s.getV y) (notBorrow (s.getV x) (s.getV y)))

/-- `8xy6` SHR Vx: `V[x]` is shifted in place, `y` is ignored (R178; log entry 11). -/
def execShr (x _y : Reg) (s : State) : Result :=
  .next (s.writeResultFlag x (s.getV x >>> 1) (lowBit (s.getV x)))

/-- `8xy7` SUBN Vx, Vy: the reverse difference, still into `V[x]` (R179). -/
def execSubnReg (x y : Reg) (s : State) : Result :=
  .next (s.writeResultFlag x (s.getV y - s.getV x) (notBorrow (s.getV y) (s.getV x)))

/-- `8xyE` SHL Vx: `V[x]` is shifted in place, `y` is ignored (R180; log entry 11). -/
def execShl (x _y : Reg) (s : State) : Result :=
  .next (s.writeResultFlag x (s.getV x <<< 1) (highBit (s.getV x)))

/-- `Cxkk` RND Vx, kk: one draw, under the mask (R181; log entry 3). -/
def execRnd (x : Reg) (kk : Byte) (s : State) : Result := .next (s.drawn.writeResult x (s.randomByte &&& kk))

end Sys2Proof.Machine
end

