-- ==== Sys2Proof/Machine/Display.lean ====
section
/-! DEFINITION. The framebuffer instructions (44_display.md). -/

namespace Sys2Proof.Machine

/-- `fb[y][x]`, with the coordinates wrapped: `x mod 64`, `y mod 32` (10_state.md R32). -/
def Framebuffer.pixel (fb : Framebuffer) (x y : Nat) : Bool :=
  (fb[y % 32]'(Nat.mod_lt y (by decide))).getLsbD (x % 64)

/-- `fb[y][x] <- fb[y][x] ^ 1`, with the coordinates wrapped. -/
def Framebuffer.toggle (fb : Framebuffer) (x y : Nat) : Framebuffer :=
  have hy : y % 32 < 32 := Nat.mod_lt y (by decide)
  fb.set (y % 32) (fb[y % 32] ^^^ (1#64 <<< (x % 64)))

/-- All pixels off. -/
def Framebuffer.clear : Framebuffer := Vector.replicate 32 0

/-- A framebuffer being drawn on, and whether a pixel has gone from on to off. -/
structure Drawing where
  /-- the pixels so far -/
  fb : Framebuffer
  /-- the collision flag so far -/
  hit : Bool
deriving DecidableEq, Repr

/-- One bit of a sprite at a pixel: a 0 changes nothing, a 1 toggles it (R221). -/
def Drawing.bit (d : Drawing) (x y : Nat) (b : Bool) : Drawing :=
  if b then ⟨d.fb.toggle x y, d.hit || d.fb.pixel x y⟩ else d

/-- Bits of a sprite's byte from column `col` on, `k` of them, the most significant bit of the byte at column 0
(R221). -/
def Drawing.bits (d : Drawing) (x y : Nat) (b : Byte) (col : Nat) : Nat → Drawing
  | 0 => d
  | k + 1 => Drawing.bits (d.bit (x + col) y (b.getLsbD (7 - col))) x y b (col + 1) k

/-- The rows of a sprite, downward from `y` (R221). -/
def Drawing.rows (d : Drawing) (x y : Nat) : List Byte → Drawing
  | [] => d
  | b :: bs => Drawing.rows (d.bits x y b 0 8) x (y + 1) bs

/-- `redraw <- 1` (10_state.md R33). -/
def State.raiseRedraw (s : State) : State := { s with redraw := true }

/-- The framebuffer replaced. -/
def State.setFb (s : State) (fb : Framebuffer) : State := { s with fb := fb }

/-- `00E0` CLS: `redraw` is raised whether or not a pixel was on (R220). -/
def execCls (s : State) : Result := .next (s.setFb .clear).raiseRedraw.advance

/-- `Dxyn` DRW Vx, Vy, n: the coordinates are read before VF is written, and VF is written whatever `n` is
(R221). -/
def execDrw (x y : Reg) (n : Fin 16) (s : State) : Result :=
  match s.memRead (s.ea 0) n.val with
  | some sprite =>
    let d := Drawing.rows ⟨s.fb, false⟩ (s.getV x).toNat (s.getV y).toNat sprite
    .next ((s.setFb d.fb).setVF d.hit).raiseRedraw.advance
  | none => raiseIn (.drw x y n) .memRangeFault s

end Sys2Proof.Machine
end

