-- ==== Sys2Proof/Machine/Flow.lean ====
section
/-! DEFINITION. Control transfer (41_flow.md). `pc` is the address of the instruction itself. -/

namespace Sys2Proof.Machine

/-- `00EE` RET: the popped entry is the call's address, so the return lands two bytes after it (R150). -/
def execRet (s : State) : Result :=
  match s.pop with
  | some (a, s') => .next (s'.jumpTo (a + 2))
  | none => raiseIn .ret .stackUnderflow s

/-- `1nnn` JP nnn (R151). -/
def execJp (nnn : Addr) (s : State) : Result := .next (s.jumpTo (zextAddr nnn))

/-- `2nnn` CALL nnn: pushes its own address (R152). -/
def execCall (nnn : Addr) (s : State) : Result :=
  match s.push s.pc with
  | some s' => .next (s'.jumpTo (zextAddr nnn))
  | none => raiseIn (.call nnn) .stackOverflow s

/-- `Bnnn` JP V0, nnn: a 16-bit sum, not masked (R154). -/
def execJpV0 (nnn : Addr) (s : State) : Result := .next (s.jumpTo (zextAddr nnn + zextByte (s.getV 0)))

/-- `3xkk` SE Vx, kk (R155). -/
def execSeImm (x : Reg) (kk : Byte) (s : State) : Result := .next (s.skipIf (s.getV x == kk))

/-- `4xkk` SNE Vx, kk (R156). -/
def execSneImm (x : Reg) (kk : Byte) (s : State) : Result := .next (s.skipIf (s.getV x != kk))

/-- `5xy0` SE Vx, Vy (R157). -/
def execSeReg (x y : Reg) (s : State) : Result := .next (s.skipIf (s.getV x == s.getV y))

/-- `9xy0` SNE Vx, Vy (R158). -/
def execSneReg (x y : Reg) (s : State) : Result := .next (s.skipIf (s.getV x != s.getV y))

end Sys2Proof.Machine
end

