-- ==== Sys2Proof/Machine/IndexMemory.lean ====
section
/-! DEFINITION. The address register and the memory instructions (43_index_memory.md). -/

namespace Sys2Proof.Machine

/-- The address of the glyph of a byte: the formula on all 8 bits (R202; log entry 19). -/
def glyphAddr (v : Byte) : Word := 0x0050 + 5 * zextByte v

/-- The decimal digits of a byte: hundreds, tens, ones (R203). -/
def bcdDigits (v : Byte) : List Byte :=
  [BitVec.ofNat 8 (v.toNat / 100), BitVec.ofNat 8 (v.toNat / 10 % 10), BitVec.ofNat 8 (v.toNat % 10)]

/-- `Annn` LD I, nnn (R200). -/
def execLdI (nnn : Addr) (s : State) : Result := .next (s.setI (zextAddr nnn)).advance

/-- `Fx1E` ADD I, Vx: modulo 65536, no flag, no mask (R201). -/
def execAddI (x : Reg) (s : State) : Result := .next (s.setI (s.I + zextByte (s.getV x))).advance

/-- `Fx29` LD F, Vx (R202). -/
def execLdF (x : Reg) (s : State) : Result := .next (s.setI (glyphAddr (s.getV x))).advance

/-- `Fx33` LD B, Vx: the three digits at `I`, `I+1`, `I+2` (R203). -/
def execLdB (x : Reg) (s : State) : Result :=
  match s.memWrite (s.ea 0) (bcdDigits (s.getV x)) with
  | some s' => .next s'.advance
  | none => raiseIn (.ldB x) .memRangeFault s

/-- `Fx55` LD [I], Vx: `V[0]` to `V[x]` at `I` up; `I` is unchanged (R204; log entry 11). -/
def execStoreRegs (x : Reg) (s : State) : Result :=
  match s.memWrite (s.ea 0) (s.regsUpTo x) with
  | some s' => .next s'.advance
  | none => raiseIn (.storeRegs x) .memRangeFault s

/-- `Fx65` LD Vx, [I]: `V[0]` to `V[x]` from `I` up; `I` is unchanged (R205; log entry 11). -/
def execLoadRegs (x : Reg) (s : State) : Result :=
  match s.memRead (s.ea 0) (x.val + 1) with
  | some bytes => .next (s.loadV bytes).advance
  | none => raiseIn (.loadRegs x) .memRangeFault s

end Sys2Proof.Machine
end

