-- ==== Sys2Proof/Machine/KeysTimers.lean ====
section
/-! DEFINITION. The key and timer instructions (45_keys_timers.md). -/

namespace Sys2Proof.Machine

/-- The key that a register names, if there is one (R230; log entry 20). -/
def keyIndex (v : Byte) : Option (Fin 16) := if h : v.toNat < 16 then some ⟨v.toNat, h⟩ else none

/-- `Ex9E` SKP Vx: on the key's level in this cycle (R230). -/
def execSkp (x : Reg) (s : State) : Result :=
  match keyIndex (s.getV x) with
  | some k => .next (s.skipIf (s.key k))
  | none => raiseIn (.skp x) .keyIndexFault s

/-- `ExA1` SKNP Vx (R231). -/
def execSknp (x : Reg) (s : State) : Result :=
  match keyIndex (s.getV x) with
  | some k => .next (s.skipIf (!s.key k))
  | none => raiseIn (.sknp x) .keyIndexFault s

/-- `Fx07` LD Vx, DT (R233). -/
def execLdVxDT (x : Reg) (s : State) : Result := .next (s.writeResult x s.DT)

/-- `Fx0A` LD Vx, K: with no key pressed the cycle changes nothing, `pc` included, and is repeated (R232,
40_fetch_cycle.md R135). -/
def execLdVxK (x : Reg) (s : State) : Result :=
  match s.firstKey with
  | some k => .next (s.writeResult x (keyByte k))
  | none => .next s

/-- `Fx15` LD DT, Vx (R234). -/
def execLdDTVx (x : Reg) (s : State) : Result := .next ({ s with DT := s.getV x } : State).advance

/-- `Fx18` LD ST, Vx (R235). -/
def execLdSTVx (x : Reg) (s : State) : Result := .next ({ s with ST := s.getV x } : State).advance

end Sys2Proof.Machine
end

