-- ==== Sys2Proof/Machine/Cycle.lean ====
section
/-! DEFINITION. The steps of the three agents (00_scope.md R7): the engine's cycle and the tick
(40_fetch_cycle.md), the host's actions (10_state.md R40), reset (70_reset_and_hazards.md R280). -/

namespace Sys2Proof.Machine

/-- One cycle of the engine (40_fetch_cycle.md R130): in a state that is not running no cycle runs (log entry 7);
then the halt request, the fetch, the decoder, and the instruction's rule. -/
def cycle (s : State) : Result :=
  if s.status ≠ .running then .next s
  else if s.env.haltReq then .next { s with status := .stopped }
  else
    match s.fetch with
    | none => .next (s.fatal .fetchFault 0x0000)
    | some w =>
      match decode w with
      | .error _ => .next (s.fatal .unknownInstruction w)
      | .ok i => exec i s

/-- A timer after a tick: one less while it is not zero (10_state.md R31). -/
def countDown (t : Byte) : Byte := if t = 0 then 0 else t - 1

/-- One tick (40_fetch_cycle.md R137). -/
def tick (s : State) : State :=
  if s.status = .running then { s with DT := countDown s.DT, ST := countDown s.ST } else s

/-- `redraw_clear` (10_state.md R33); ignored in a state that is not running (60_exceptions.md R259). -/
def redrawClear (s : State) : State :=
  if s.status = .running then { s with redraw := false } else s

/-- Reset with a program image: the whole state of the CORE anew, the image at 0x200, or no machine when the image is
too long (70_reset_and_hazards.md R280, R282). The ports and the agenda are the host's and stay (log entry 9). -/
def resetWith (image : Image) (s : State) : Result :=
  if image.wellFormed then
    .next { State.reset with mem := Memory.writeBytes State.reset.mem Config.progBase image, env := s.env }
  else .fault .loadError

/-- The step that an event names. A change of an input port is taken in every status: the ports are the host's. -/
def perform (e : Event) (s : State) : Result :=
  match e with
  | .cycle => cycle s
  | .tick => .next (tick s)
  | .redrawClear => .next (redrawClear s)
  | .setKeys keys => .next { s with env := { s.env with keys := keys } }
  | .offerRandom r => .next { s with env := { s.env with rand := s.env.rand ++ [r] } }
  | .setHalt level => .next { s with env := { s.env with haltReq := level } }
  | .reset image => resetWith image s

/-- The state with the agenda replaced. -/
def State.setAgenda (s : State) (agenda : List Event) : State := { s with env := { s.env with agenda := agenda } }

/-- The next step due: the first event of the agenda, or the engine's next cycle (log entry 1). -/
def nextStep (s : State) : Result :=
  match s.env.agenda with
  | [] => cycle s
  | e :: rest => perform e (s.setAgenda rest)

/-- A state that runs the instruction at `pc` as its next step, that instruction being the word stored there: the
agenda is emptied and the halt request withdrawn, so that the engine's cycle is next (log entry 16). -/
def State.withWord (s : State) (w : Word) : State :=
  { s with
    mem := s.mem.writeBytes s.pc.toNat [highByte w, lowByte w]
    env := { s.env with agenda := [], haltReq := false } }

end Sys2Proof.Machine
end

