-- ==== Sys2Proof/Machine/Outputs.lean ====
section
/-! DEFINITION. The outputs that are not state (10_state.md R37, R40). -/

namespace Sys2Proof.Machine

/-- The instruction that the engine's cycle in this state executes, if it executes one. -/
def State.current (s : State) : Option Instr :=
  if s.status = .running ∧ s.env.haltReq = false then
    match s.fetch with
    | none => none
    | some w =>
      match decode w with
      | .ok i => some i
      | .error _ => none
  else none

/-- `key_wait` during the engine's cycle in this state: the instruction is `Fx0A` and no key is pressed (R37). -/
def State.keyWait (s : State) : Bool :=
  match s.current with
  | some (.ldVxK _) => s.firstKey.isNone
  | _ => false

/-- `st_nonzero` (R40). -/
def State.stNonzero (s : State) : Bool := s.ST != 0

end Sys2Proof.Machine
end

