-- ==== Sys2Proof/Safety.lean ====
section
/-! DEFINITION. The terms that claims use: what a step may leave alone, how a cycle ends in a fatal error, what every
reached state keeps, where a program rests. -/

namespace Sys2Proof.Machine

/-! ### Frames -/

/-- Every V register but those named is as before. -/
def State.keepsVBut (s t : State) (changed : List Reg) : Prop := ∀ r, r ∉ changed → t.getV r = s.getV r

/-- Every byte of memory reads as before. -/
def State.sameMemory (s t : State) : Prop := ∀ a, t.mem.read a = s.mem.read a

/-- Nothing but `pc` may differ. -/
def State.changesOnlyPc (s t : State) : Prop := t = { s with pc := t.pc } ∧ s.sameMemory t

/-- Nothing but the V registers and `pc` may differ. -/
def State.changesOnlyVPc (s t : State) : Prop := t = { s with V := t.V, pc := t.pc } ∧ s.sameMemory t

/-- Nothing but `I` and `pc` may differ. -/
def State.changesOnlyIPc (s t : State) : Prop := t = { s with I := t.I, pc := t.pc } ∧ s.sameMemory t

/-- Nothing of the CORE differs: only the ports and the agenda may. -/
def State.sameCore (s t : State) : Prop := t = { s with env := t.env } ∧ s.sameMemory t

/-! ### How a cycle comes and ends -/

/-- The engine's cycle is the next step, and `rest` is due after it. -/
def State.cycleDue (s : State) (rest : List Event) : Prop :=
  s.env.agenda = [] ∧ rest = [] ∨ s.env.agenda = .cycle :: rest

/-- The engine runs and no halt is requested. -/
def State.ready (s : State) : Prop := s.status = .running ∧ s.env.haltReq = false

/-- `t` is `s` after a fatal error (60_exceptions.md R254): the record holds the cause, its class, the word and the `pc`
of `s`; the status is `Faulted`; nothing else differs. -/
def State.faultedFrom (s t : State) (cause : ErrCause) (cls : ErrClass) (word : Word) : Prop :=
  t = { s with status := .faulted, err := t.err } ∧ t.err.cause = cause ∧ t.err.cls = cls ∧ t.err.word = word ∧
    t.err.pc = s.pc

/-- `n` steps, one after the other, as far as there is a next state. -/
def runSteps : Nat → State → Result
  | 0, s => .next s
  | n + 1, s =>
    match step s with
    | .next t => runSteps n t
    | .fault f => .fault f
    | .refused r => .refused r

/-! ### The steps of a run -/

/-- The next step is the engine's cycle, and the cycle executes `i`. -/
def State.runsNext (s : State) (i : Instr) : Prop := (∃ rest, s.cycleDue rest) ∧ s.current = some i

/-- The next step is a tick that the machine takes (40_fetch_cycle.md R137: only while it runs). -/
def State.tickDue (s : State) : Bool := decide (s.status = .running ∧ s.env.agenda.head? = some .tick)

/-- How many of the next `n` steps are ticks. -/
def State.ticksIn : Nat → State → Nat
  | 0, _ => 0
  | n + 1, s =>
    (if s.tickDue = true then 1 else 0) +
      match step s with
      | .next t => State.ticksIn n t
      | _ => 0

/-- The next step is a reset, or the cycle of an `Fx15`: the steps, beside ticks, that change `DT`. -/
def State.delayWriteDue (s : State) : Bool :=
  let fx15 : Bool :=
    match s.current with
    | some (.ldDTVx _) => true
    | _ => false
  match s.env.agenda with
  | [] => fx15
  | .cycle :: _ => fx15
  | .reset _ :: _ => true
  | _ => false

/-- None of the next `n` steps is a reset or the cycle of an `Fx15`. -/
def State.noDelayWriteIn : Nat → State → Bool
  | 0, _ => true
  | n + 1, s =>
    !s.delayWriteDue &&
      match step s with
      | .next t => State.noDelayWriteIn n t
      | _ => true

/-! ### The bits of a sprite -/

/-- Whether an `n`-row sprite at `I`, drawn from `(x0, y0)`, has a 1 bit over the pixel `(px, py)`: the pixel is in
row `r` and column `c` of the sprite, counted from the start with wraparound, and bit `7 - c` of byte `I + r` is 1
(44_display.md R221). -/
def State.spriteOver (s : State) (x0 y0 n px py : Nat) : Bool :=
  let c := (px + 64 - x0 % 64) % 64
  let r := (py + 32 - y0 % 32) % 32
  decide (c < 8) && decide (r < n) && (s.mem.read (s.ea r)).getLsbD (7 - c)

/-! ### What every reached state keeps -/

/-- Every live call was made from an address that the fetch accepts, and `pc` is one that an instruction can leave
(10_state.md R27, 41_flow.md R150). -/
structure State.flowOk (s : State) : Prop where
  /-- the live stack entries are addresses of instructions -/
  calls : ∀ k : Fin 16, k.val < s.sp.val → pcLegal s.stack[k] = true
  /-- no instruction leaves a larger `pc` -/
  bound : s.pc.toNat ≤ 0x10FE

/-- The error record tells how the machine stopped (10_state.md R36, 60_exceptions.md R250, R254): it is zero until a
fatal error is taken, and then names a cause, its class and the `pc` that stays. -/
structure State.recordOk (s : State) : Prop where
  /-- no error yet -/
  clean : s.status ≠ .faulted → s.err = .zero
  /-- after a fatal error -/
  taken : s.status = .faulted → s.err.cause ≠ .none ∧ s.err.cls = s.err.cause.cls ∧ s.err.pc = s.pc

/-! ### The end of a run -/

/-- The resting point of a program (70_reset_and_hazards.md R293, the spec's definition for claims): running, and the
instruction at `pc` jumps to itself. -/
def State.atRest (s : State) : Prop :=
  s.status = .running ∧ ∃ nnn, s.fetch = some (encode (.jp nnn)) ∧ zextAddr nnn = s.pc

end Sys2Proof.Machine
end

