-- ==== Sys2Proof/Certificates/Slice0/Obligations.lean ====
section
/-! DEFINITION. The statements for the provers. -/

open Sys2Proof Sys2Proof.Machine

/-! ### Decoder and encoder (30_encoding.md) -/

/-- At least one word of every family, from the vectors of 95_test_vectors.md section 2.1 and the bit patterns of
the instructions' rules, and words that are no instruction (R97, R98, R99). The nibbles of family 8 are the spec's
decision D34, the strict match of families 0, 5 and 9 its decision D15. -/
def Obligations.DecoderReadsTheSpecsWords : Prop :=
  decode 0x00E0 = .ok .cls ∧ decode 0x00EE = .ok .ret ∧ decode 0x1ABC = .ok (.jp 0xABC) ∧
  decode 0x2FFF = .ok (.call 0xFFF) ∧ decode 0x3A7F = .ok (.seImm 0xA 0x7F) ∧ decode 0x4211 = .ok (.sneImm 2 0x11) ∧
  decode 0x5120 = .ok (.seReg 1 2) ∧ decode 0x6A2B = .ok (.ldImm 0xA 0x2B) ∧ decode 0x7102 = .ok (.addImm 1 0x02) ∧
  decode 0x8AB4 = .ok (.addReg 0xA 0xB) ∧ decode 0x8ABE = .ok (.shl 0xA 0xB) ∧ decode 0x9120 = .ok (.sneReg 1 2) ∧
  decode 0xA300 = .ok (.ldI 0x300) ∧ decode 0xB300 = .ok (.jpV0 0x300) ∧ decode 0xC30F = .ok (.rnd 3 0x0F) ∧
  decode 0xD12F = .ok (.drw 1 2 0xF) ∧ decode 0xE19E = .ok (.skp 1) ∧ decode 0xE1A1 = .ok (.sknp 1) ∧
  decode 0xF007 = .ok (.ldVxDT 0) ∧ decode 0xFF65 = .ok (.loadRegs 0xF) ∧
  decode 0x0000 = .error (.unknown 0x0000) ∧ decode 0x01E0 = .error (.unknown 0x01E0) ∧
  decode 0x5121 = .error (.unknown 0x5121) ∧ decode 0x8AB8 = .error (.unknown 0x8AB8) ∧
  decode 0xF075 = .error (.unknown 0xF075)

/-- Decoding the bytes of an instruction, whatever follows them, gives the instruction and what follows: no operand
bit is lost, for any operand. -/
def Obligations.DecodeOfEncodeIsTheInstruction : Prop :=
  ∀ (i : Instr) (rest : List Byte), decodeBytes (encodeBytes i ++ rest) = .ok (i, rest)

/-- Each word has one meaning: the instruction a word decodes to has that word. -/
def Obligations.EncodeOfDecodeIsTheWord : Prop :=
  ∀ (w : Word) (i : Instr), decode w = .ok i → encode i = w

/-- 30_encoding.md R96: a word of a row decodes to an instruction of that row's number, a word of no row is
`UNKNOWN`, and no word is of two rows. The numbers are the spec's decision D24, the nibbles of family 8 its decision
D34, the strict match of families 0, 5 and 9 its decision D15. -/
def Obligations.DecoderFollowsTheOpcodeMap : Prop :=
  (∀ w, ∀ r ∈ opcodeTable, r.accepts w = true → ∃ i, decode w = .ok i ∧ i.kind = r.id) ∧
  (∀ w, (∀ r ∈ opcodeTable, r.accepts w = false) → decode w = .error (.unknown w)) ∧
  (∀ w, ∀ r ∈ opcodeTable, ∀ r' ∈ opcodeTable, r.accepts w = true → r'.accepts w = true → r = r')

/-! ### The cycle (40_fetch_cycle.md) and fetch -/

/-- A step runs the decoded instruction (R130): when the bytes at `pc` are those of `i`, the engine's step is `exec
i`, with the agenda's `cycle` taken off (the agenda is the model's, log entry 1). -/
def Obligations.StepRunsTheDecodedInstruction : Prop :=
  ∀ (s : State) (rest : List Event) (i : Instr), s.ready → s.cycleDue rest → pcLegal s.pc = true →
    decodeBytes [s.mem.read s.pc.toNat, s.mem.read (s.pc.toNat + 1)] = .ok (i, []) →
    step s = exec i (s.setAgenda rest)

/-- 20_memory.md R68: the byte at `pc` is the high half of the fetched word (the spec's decision D1, log entry 10),
and a word is fetched exactly from an even address with both bytes in 0x200 to 0xFFF (decision D5). -/
def Obligations.FetchReadsHighByteFirst : Prop :=
  (∀ (s : State) (w : Word), s.fetch = some w →
    w.toNat = 256 * (s.mem.read s.pc.toNat).toNat + (s.mem.read (s.pc.toNat + 1)).toNat) ∧
  (∀ s : State, s.fetch = none ↔ (s.pc.toNat % 2 = 1 ∨ s.pc.toNat < 0x200 ∨ 0xFFE < s.pc.toNat))

/-- 60_exceptions.md R251, 10_state.md R25: a `pc` that references no instruction makes the cycle fatal, of class
decode, with word zero (the spec's decisions D5 and D25). -/
def Obligations.IllegalPcFaultsAtFetch : Prop :=
  ∀ (s : State) (rest : List Event), s.ready → s.cycleDue rest →
    (s.pc.toNat % 2 = 1 ∨ s.pc.toNat < 0x200 ∨ 0xFFE < s.pc.toNat) →
    ∃ t, step s = .next t ∧ (s.setAgenda rest).faultedFrom t .fetchFault .decode 0x0000

/-- 60_exceptions.md R252: an unknown word makes the cycle fatal, and the error carries the raw word and the current
`pc`. -/
def Obligations.UnknownInstructionIsFatal : Prop :=
  ∀ (s : State) (rest : List Event) (w : Word), s.ready → s.cycleDue rest → s.fetch = some w →
    decode w = .error (.unknown w) →
    ∃ t, step s = .next t ∧ (s.setAgenda rest).faultedFrom t .unknownInstruction .decode w

/-- A fatal error that an executed instruction raises records the word that was fetched and the instruction's
address, and leaves everything else (60_exceptions.md R254, R255; precision is the spec's decision D16). -/
def Obligations.FaultRecordsTheFetchedWord : Prop :=
  ∀ (s t : State) (rest : List Event) (w : Word), s.ready → s.cycleDue rest → s.fetch = some w →
    step s = .next t → t.status = .faulted →
    ∃ cause cls, (s.setAgenda rest).faultedFrom t cause cls w

/-- 60_exceptions.md R258 (the spec's decision D18, log entry 25): a halt request at the start of a cycle stops the
machine, executes nothing and leaves everything else, the error record included. -/
def Obligations.HaltRequestStopsTheEngine : Prop :=
  ∀ (s : State) (rest : List Event), s.status = .running → s.env.haltReq = true → s.cycleDue rest →
    step s = .next { s.setAgenda rest with status := .stopped }

/-- 60_exceptions.md R259 (the spec's decision D23): once the machine is not running, no step but a reset changes
anything of the CORE. That such a step answers the same state is the model's choice, log entry 7. -/
def Obligations.FrozenUnlessReset : Prop :=
  ∀ s : State, s.status ≠ .running → (∀ image rest, s.env.agenda ≠ .reset image :: rest) →
    ∃ t, step s = .next t ∧ s.sameCore t

/-! ### The tick and the host (40_fetch_cycle.md, 10_state.md, 70_reset_and_hazards.md) -/

/-- 40_fetch_cycle.md R137 (a tick is an agent's step, the spec's decision D19, log entry 25): one tick takes one
off each timer that is not zero and changes nothing else. -/
def Obligations.TickTakesOneOffEachTimer : Prop :=
  ∀ (s : State) (rest : List Event), s.status = .running → s.env.agenda = .tick :: rest →
    ∃ t, step s = .next t ∧ t.DT.toNat = s.DT.toNat - 1 ∧ t.ST.toNat = s.ST.toNat - 1 ∧
      t = { s.setAgenda rest with DT := t.DT, ST := t.ST } ∧ s.sameMemory t

/-- 40_fetch_cycle.md R138 (a tick is an agent's step, the spec's decision D19): a value `v` that an `Fx15` cycle
writes to `DT` is read back by an `Fx07` cycle as `max (v - t) 0`, `t` being the ticks between the two cycles,
whatever other cycles and host actions fall between them, so long as none of them is an `Fx15` or a reset; and any
number of ticks in a row can fall between. -/
def Obligations.DelayTimerReadsBackLessTheTicks : Prop :=
  (∀ (s : State) (x y : Reg), s.runsNext (.ldDTVx x) →
    ∃ t, step s = .next t ∧ ∀ (n : Nat) (u : State), t.noDelayWriteIn n = true → runSteps n t = .next u →
      u.runsNext (.ldVxDT y) →
      ∃ v, step u = .next v ∧ (v.getV y).toNat = (s.getV x).toNat - t.ticksIn n) ∧
  (∀ (s : State) (x y : Reg) (n : Nat) (rest : List Event), s.status = .running →
    s.env.agenda = List.replicate n .tick ++ rest →
    ∃ t u v, exec (.ldDTVx x) s = .next t ∧ runSteps n t = .next u ∧ t.ticksIn n = n ∧
      exec (.ldVxDT y) u = .next v ∧ (v.getV y).toNat = (s.getV x).toNat - n ∧ v.env.agenda = rest)

/-- 10_state.md R33 (the spec's decision D20), R40, R41, 00_scope.md R7 (its decision D33, log entry 25): the host's
`redraw_clear` on a running machine clears the flag and nothing else, and its change of the key levels, of the halt
request or of the bytes on port `rand` sets that port and nothing else, of the CORE or of the other ports. That a
port changes in every status is the model's choice, log entry 18, that the offered bytes are taken in order log
entry 3. -/
def Obligations.RedrawIsClearedByTheHost : Prop :=
  (∀ (s : State) (rest : List Event), s.status = .running → s.env.agenda = .redrawClear :: rest →
    ∃ t, step s = .next t ∧ t = { s.setAgenda rest with redraw := false } ∧ s.sameMemory t) ∧
  (∀ (s : State) (keys : Keys) (rest : List Event), s.env.agenda = .setKeys keys :: rest →
    ∃ t, step s = .next t ∧ s.sameCore t ∧ (∀ k : Fin 16, t.key k = keys[k]) ∧
      t.env = { s.env with keys := keys, agenda := rest }) ∧
  (∀ (s : State) (r : Byte) (rest : List Event), s.env.agenda = .offerRandom r :: rest →
    ∃ t, step s = .next t ∧ s.sameCore t ∧ t.env = { s.env with rand := s.env.rand ++ [r], agenda := rest }) ∧
  (∀ (s : State) (level : Bool) (rest : List Event), s.env.agenda = .setHalt level :: rest →
    ∃ t, step s = .next t ∧ s.sameCore t ∧ t.env = { s.env with haltReq := level, agenda := rest })

/-- 70_reset_and_hazards.md R282: a reset is defined for an image of at most 3584 bytes, none being legal, and for a
longer one leaves no machine (the model's Fault, log entry 9); the empty image leaves a memory that holds only the
glyphs, that is the 80 bytes of `FONT_TABLE` at 0x050 to 0x09F (the spec's parameter, with the default of its
decision D26, log entry 5) and zero elsewhere, and whose first fetch reads 0x0000, which is `UNKNOWN`. -/
def Obligations.ResetIsDefinedUpTo3584Bytes : Prop :=
  (∀ (image : Image) (s : State), (∃ t, resetWith image s = .next t) ↔ image.length ≤ 3584) ∧
  (∀ (image : Image) (s : State), 3584 < image.length → resetWith image s = .fault .loadError) ∧
  (∀ s : State, ∃ t, resetWith [] s = .next t ∧
    (fontTable.length = 80 ∧ ∀ k (h : k < fontTable.length), t.mem.read (0x050 + k) = fontTable[k]) ∧
    (∀ a, a < 0x050 ∨ 0x09F < a → t.mem.read a = 0x00) ∧
    t.fetch = some 0x0000 ∧ decode 0x0000 = .error (.unknown 0x0000))

/-- 70_reset_and_hazards.md R280, 20_memory.md R65 to R67: a reset from any state, running or not, lays the image
down from 0x200, leaves the reset contents elsewhere, and sets every other field. The reset contents elsewhere are
zero and the glyph bytes, which are the spec's parameter `FONT_TABLE` with the default of its decision D26 (log
entry 5). The zeros of all but `pc`, `sp` and memory, and `status = Running`, are the spec's decision D2 (log entry
4). That the ports and the agenda stay is the model's choice (log entry 9). `t.mem.wf = true` says that the new
memory is in the model's own canonical form (log entry 6, DEDUCED), and is no rule of the spec. -/
def Obligations.HostResetLoadsTheImage : Prop :=
  ∀ (s : State) (image : Image) (rest : List Event), s.env.agenda = .reset image :: rest → image.length ≤ 3584 →
    ∃ t, step s = .next t ∧ t.pc = 0x0200 ∧ t.sp = 0 ∧
      (∀ k (h : k < image.length), t.mem.read (0x200 + k) = image[k]) ∧
      (∀ a, a < 0x200 ∨ 0x200 + image.length ≤ a → t.mem.read a = resetByte a) ∧ t.mem.wf = true ∧
      (∀ r, t.getV r = 0x00) ∧ t.I = 0x0000 ∧ (∀ k : Fin 16, t.stack[k] = 0x0000) ∧ t.DT = 0x00 ∧ t.ST = 0x00 ∧
      (∀ px py, t.fb.pixel px py = false) ∧ t.redraw = false ∧ t.status = .running ∧ t.err = .zero ∧
      t.env = { s.env with agenda := rest }

/-- 60_exceptions.md R264: a load error comes from a reset whose image is longer than 3584 bytes, and from nothing
else; the engine never raises it. That this reset is the model's Fault is log entry 9; that a machine which is not
running has a next state too is log entry 7; that every instruction answers a next state and no step is refused
follows from the instructions' rules, which end in a next state or a fatal error. -/
def Obligations.OnlyAnOverlongImageIsALoadError : Prop :=
  (∀ (s : State) (f : Fault), step s = .fault f ↔
    ∃ image rest, s.env.agenda = .reset image :: rest ∧ 3584 < image.length ∧ f = .loadError) ∧
  (∀ (i : Instr) (s : State), ∃ t, exec i s = .next t) ∧
  (∀ (s : State) (r : Refusal), step s ≠ .refused r)

/-- The state after reset with the empty image. `pc`, `sp` and the zeroed memory are given; the other zeros are the
spec's decision D2 (log entry 4), the glyph bytes its parameter `FONT_TABLE` with its default, decision D26 (log
entry 5), and the ports' levels the model's choice (log entry 2). -/
def Obligations.ResetStateIsAsTheSpecSays : Prop :=
  State.reset.pc = 0x0200 ∧ State.reset.sp = 0 ∧
  (∀ a, a < 0x050 ∨ 0x09F < a → State.reset.mem.read a = 0x00) ∧
  (fontTable.length = 80 ∧ ∀ k (h : k < fontTable.length), State.reset.mem.read (0x050 + k) = fontTable[k]) ∧
  (∀ r, State.reset.getV r = 0x00) ∧ State.reset.I = 0x0000 ∧ (∀ k : Fin 16, State.reset.stack[k] = 0x0000) ∧
  State.reset.DT = 0x00 ∧ State.reset.ST = 0x00 ∧ (∀ px py, State.reset.fb.pixel px py = false) ∧
  State.reset.redraw = false ∧ State.reset.status = .running ∧ State.reset.err = .zero ∧
  (∀ k, State.reset.key k = false) ∧ State.reset.env.haltReq = false

/-! ### Data accesses (20_memory.md) -/

/-- 20_memory.md R70: a read of `n` bytes raises `MemRangeFault` exactly when its last byte lies above 0xFFF (a
fault in place of a mask is the spec's decision D6, log entry 23), and otherwise is the bytes from its address up.
That a read of no bytes never faults is its decision D27, log entry 24. -/
def Obligations.MemReadIsTheBytesOrAFault : Prop :=
  ∀ (s : State) (a n : Nat),
    (s.memRead a n = none ↔ 0 < n ∧ 0xFFF < a + n - 1) ∧
    (∀ bytes, s.memRead a n = some bytes →
      bytes.length = n ∧ ∀ k (h : k < bytes.length), bytes[k] = s.mem.read (a + k))

/-- 20_memory.md R71 (checked before any write, the spec's decision D16; a fault in place of a mask, D6, log entry
23): a store raises `MemRangeFault` exactly when its last byte lies above 0xFFF, and otherwise its bytes are what is
read there, no other byte changes, and nothing but memory changes. That a store into 0x000 to 0x1FF or the glyphs is
performed too is the spec's decision D7 (20_memory.md R64, log entry 12). A store of no bytes, which no instruction
makes, never faults (the model's `rangeOk`, log entry 24). -/
def Obligations.MemWriteIsReadBack : Prop :=
  ∀ (s : State) (a : Nat) (bytes : List Byte),
    (s.memWrite a bytes = none ↔ 0 < bytes.length ∧ 0xFFF < a + bytes.length - 1) ∧
    (∀ t, s.memWrite a bytes = some t →
      (∀ k (h : k < bytes.length), t.mem.read (a + k) = bytes[k]) ∧
      (∀ b, b < a ∨ a + bytes.length ≤ b → t.mem.read b = s.mem.read b) ∧ t = { s with mem := t.mem })

/-! ### Invariants -/

/-- Every step keeps the memory's canonical form, which is the model's own way to write memory down (log entry 6,
DEDUCED) and no rule of the spec; with it every listed address stays inside the 4096 bytes, because the range check
of 20_memory.md R71 comes before every store. -/
def Obligations.StepKeepsMemoryCanonical : Prop :=
  ∀ s t : State, s.mem.wf = true → step s = .next t → t.mem.wf = true

/-- Every step keeps the live return addresses fetchable and `pc` at most 0x10FE (10_state.md R27). That a call
pushes its own address is the spec's decision D4 (log entry 27), how the stack is written down its decision D3 (log
entry 15), where the fetch faults its decision D5 (log entry 22), the unmasked target of `Bnnn` its decision D6 (log
entry 23). -/
def Obligations.StepKeepsCallsAndPcInRange : Prop :=
  ∀ s t : State, s.flowOk → step s = .next t → t.flowOk

/-- Every step keeps the error record true to the status (10_state.md R35, R36). The record's fields and the three
statuses are the spec's decisions D17 and D18, that a halt writes no record its decision D18, that a machine which
is not running keeps its `pc` and record its decision D23, the zero record and Running of a reset its decision D2
(log entry 4). -/
def Obligations.StepKeepsTheErrorRecord : Prop :=
  ∀ s t : State, s.recordOk → step s = .next t → t.recordOk

/-- The state after reset meets the three invariants that every step keeps. `mem.wf` is the model's own canonical
form (log entry 6, DEDUCED), and no rule of the spec. `flowOk` rests on the `pc` 0x0200 and the empty stack that the
spec gives for reset (10_state.md R42), with `sp` as a count of the live entries, its decision D3 (log entry 15).
`recordOk` rests on the zero record and the status Running of its decision D2 (log entry 4). -/
def Obligations.ResetMeetsTheInvariants : Prop :=
  State.reset.mem.wf = true ∧ State.reset.flowOk ∧ State.reset.recordOk

/-! ### Whole-machine rules -/

/-- 20_memory.md R60: memory is changed only by `Fx33` and `Fx55`, and only in the bytes they store. That no byte
outside `I` up and none above 0xFFF changes rests on the spec's decisions D6 (no mask, log entry 23) and D16 (a
faulting store writes nothing, log entry 21). -/
def Obligations.OnlyTheStoresChangeMemory : Prop :=
  ∀ (i : Instr) (s t : State) (a : Nat), exec i s = .next t → t.mem.read a ≠ s.mem.read a →
    a ≤ 0xFFF ∧ s.ea 0 ≤ a ∧
      ((∃ x, i = .ldB x ∧ a ≤ s.ea 2) ∨ (∃ x : Reg, i = .storeRegs x ∧ a ≤ s.ea x.val))

/-- Who writes what. The table of 10_state.md section 1 names the instructions that write `I`, the stack, `sp`, a
timer, the framebuffer or `redraw`, and an instruction that changes one of these is one it names (that `Fx55` and
`Fx65` leave `I` is the spec's decision D11, log entry 11, that a return leaves the entries its decision D3, log
entry 15). That `Cxkk` alone changes the model's environment, by using up a random byte, is log entry 3 and no row
of that table. -/
def Obligations.OnlyTheNamedInstructionsWriteEachRegister : Prop :=
  ∀ (i : Instr) (s t : State), exec i s = .next t →
    (t.I ≠ s.I → (∃ nnn, i = .ldI nnn) ∨ (∃ x, i = .addI x) ∨ (∃ x, i = .ldF x)) ∧
    (t.stack ≠ s.stack → ∃ nnn, i = .call nnn) ∧
    (t.sp ≠ s.sp → (∃ nnn, i = .call nnn) ∨ i = .ret) ∧
    (t.DT ≠ s.DT → ∃ x, i = .ldDTVx x) ∧
    (t.ST ≠ s.ST → ∃ x, i = .ldSTVx x) ∧
    (t.fb ≠ s.fb ∨ t.redraw ≠ s.redraw → i = .cls ∨ ∃ x y n, i = .drw x y n) ∧
    (t.env ≠ s.env → ∃ x kk, i = .rnd x kk)

/-- 10_state.md R21 (with the spec's decisions D9 and D32): an instruction changes VF only as the flag of `8xy4`,
`8xy5`, `8xy6`, `8xy7`, `8xyE`, `Dxyn`, which leave it 0 or 1 unless they fault, or as its ordinary destination. -/
def Obligations.OnlyFlagsAndDestinationsWriteVF : Prop :=
  ∀ (i : Instr) (s t : State), exec i s = .next t → t.getV Reg.vf ≠ s.getV Reg.vf →
    (((∃ x y, i = .addReg x y ∨ i = .subReg x y ∨ i = .shr x y ∨ i = .subnReg x y ∨ i = .shl x y) ∨
        (∃ x y n, i = .drw x y n)) ∧ (t.getV Reg.vf = 0x00 ∨ t.getV Reg.vf = 0x01)) ∨
    (∃ kk, i = .ldImm Reg.vf kk ∨ i = .addImm Reg.vf kk ∨ i = .rnd Reg.vf kk) ∨
    (∃ y, i = .ldReg Reg.vf y ∨ i = .orReg Reg.vf y ∨ i = .andReg Reg.vf y ∨ i = .xorReg Reg.vf y) ∨
    i = .ldVxDT Reg.vf ∨ i = .ldVxK Reg.vf ∨ i = .loadRegs Reg.vf

/-- 60_exceptions.md R255, R256 (precision is the spec's decision D16, the key index fault D13, `sp` as a count D3,
a range fault in place of a mask D6, no fault of `Dxyn` with `n` = 0 D27): an instruction that was run either leaves
the machine running or is one of the eight that can fault, under its own condition, with that cause and class, and
then changes nothing else. That the recorded word is `encode i` is log entry 8, DEDUCED. -/
def Obligations.InstructionFaultsArePrecise : Prop :=
  ∀ (i : Instr) (s t : State), s.status = .running → exec i s = .next t →
    (t.status = .running ∧ t.err = s.err) ∨
    ((∃ nnn, i = .call nnn) ∧ s.sp.val = 16 ∧ s.faultedFrom t .stackOverflow .bounds (encode i)) ∨
    (i = .ret ∧ s.sp.val = 0 ∧ s.faultedFrom t .stackUnderflow .bounds (encode i)) ∨
    (((∃ x y, ∃ n : Fin 16, i = .drw x y n ∧ 0 < n.val ∧ 0xFFF < s.ea n.val - 1) ∨ (∃ x, i = .ldB x ∧ 0xFFF < s.ea 2) ∨
        (∃ x : Reg, (i = .storeRegs x ∨ i = .loadRegs x) ∧ 0xFFF < s.ea x.val)) ∧
      s.faultedFrom t .memRangeFault .bounds (encode i)) ∨
    ((∃ x, (i = .skp x ∨ i = .sknp x) ∧ 15 < (s.getV x).toNat) ∧ s.faultedFrom t .keyIndexFault .bounds (encode i))

/-- 10_state.md R26: how each instruction leaves `pc`. The return's `+ 2` is the spec's decision D4 (log entry 27),
the place of the popped entry D3 (log entry 15), the unmasked sum of `Bnnn` D6 (log entry 23), the key wait's levels
D14 (log entry 13). That a key skip which does not fault has a key index of at most 15 is D13 (log entry 20), that a
faulting instruction leaves `pc` is D16 (log entry 21). -/
def Obligations.EachInstructionAdvancesPcAsItsRuleSays : Prop :=
  ∀ (i : Instr) (s t : State), s.status = .running → exec i s = .next t →
    (t.status = .faulted ∧ t.pc = s.pc) ∨
    (t.status = .running ∧
      match i with
      | .jp nnn | .call nnn => t.pc.toNat = nnn.toNat
      | .jpV0 nnn => t.pc.toNat = nnn.toNat + (s.getV 0).toNat
      | .ret => ∃ h : s.sp.val - 1 < 16, t.pc = s.stack[s.sp.val - 1] + 2
      | .seImm x kk => t.pc = s.pc + (if s.getV x = kk then 4 else 2)
      | .sneImm x kk => t.pc = s.pc + (if s.getV x = kk then 2 else 4)
      | .seReg x y => t.pc = s.pc + (if s.getV x = s.getV y then 4 else 2)
      | .sneReg x y => t.pc = s.pc + (if s.getV x = s.getV y then 2 else 4)
      | .skp x => ∃ k : Fin 16, k.val = (s.getV x).toNat ∧ t.pc = s.pc + (if s.key k = true then 4 else 2)
      | .sknp x => ∃ k : Fin 16, k.val = (s.getV x).toNat ∧ t.pc = s.pc + (if s.key k = true then 2 else 4)
      | .ldVxK _ => t.pc = if ∃ k, s.key k = true then s.pc + 2 else s.pc
      | .cls | .ldImm _ _ | .addImm _ _ | .ldReg _ _ | .orReg _ _ | .andReg _ _ | .xorReg _ _ | .addReg _ _
      | .subReg _ _ | .shr _ _ | .subnReg _ _ | .shl _ _ | .ldI _ | .rnd _ _ | .drw _ _ _ | .ldVxDT _ | .ldDTVx _
      | .ldSTVx _ | .addI _ | .ldF _ | .ldB _ | .storeRegs _ | .loadRegs _ => t.pc = s.pc + 2)

/-- 10_state.md R31, R33: no instruction reads `ST` or `redraw`; two runs of an instruction that differ only there
differ at most there afterwards. -/
def Obligations.SoundTimerAndRedrawAreNeverRead : Prop :=
  ∀ (i : Instr) (s : State) (st : Byte) (rd : Bool),
    ∃ t u, exec i s = .next t ∧ exec i { s with ST := st, redraw := rd } = .next u ∧
      u = { t with ST := u.ST, redraw := u.redraw } ∧
      (u.ST = t.ST ∨ u.ST = st ∧ t.ST = s.ST) ∧ (u.redraw = t.redraw ∨ u.redraw = rd ∧ t.redraw = s.redraw)

/-- 60_exceptions.md R250 (the numbers are the spec's decision D17): the code and the class of each cause, and the
codes of the classes. -/
def Obligations.ErrorCodesAreTheTables : Prop :=
  ErrCause.none.code = 0 ∧ ErrCause.unknownInstruction.code = 1 ∧ ErrCause.fetchFault.code = 2 ∧
  ErrCause.stackOverflow.code = 3 ∧ ErrCause.stackUnderflow.code = 4 ∧ ErrCause.memRangeFault.code = 5 ∧
  ErrCause.keyIndexFault.code = 6 ∧
  ErrCause.none.cls = .none ∧ ErrCause.unknownInstruction.cls = .decode ∧ ErrCause.fetchFault.cls = .decode ∧
  ErrCause.stackOverflow.cls = .bounds ∧ ErrCause.stackUnderflow.cls = .bounds ∧
  ErrCause.memRangeFault.cls = .bounds ∧ ErrCause.keyIndexFault.cls = .bounds ∧
  ErrClass.none.code = 0 ∧ ErrClass.load.code = 1 ∧ ErrClass.decode.code = 2 ∧ ErrClass.bounds.code = 3

/-! ### The call stack (10_state.md) -/

/-- 10_state.md R29, R30: a push with sixteen entries in use and a pop with none fail; otherwise a push puts the
value on top, a pop takes the top entry, which keeps its value, and nothing else changes; pushes without a pop
succeed up to sixteen entries and the next one is the first to fail. That `sp` counts the entries, that `stack[sp]`
is the next free one and that the stack grows upward is the spec's decision D3, log entry 15. -/
def Obligations.PushAndPopAreBounded : Prop :=
  (∀ (s : State) (v : Word), (s.push v = none ↔ s.sp.val = 16) ∧
    ∀ t, s.push v = some t → t.sp.val = s.sp.val + 1 ∧ t = { s with stack := t.stack, sp := t.sp } ∧
      ∀ k : Fin 16, t.stack[k] = if k.val = s.sp.val then v else s.stack[k]) ∧
  (∀ s : State, (s.pop = none ↔ s.sp.val = 0) ∧
    ∀ a t, s.pop = some (a, t) → t.sp.val = s.sp.val - 1 ∧ t = { s with sp := t.sp } ∧
      ∃ h : t.sp.val < 16, a = t.stack[t.sp.val]) ∧
  (∀ (s : State) (vs : List Word), (vs.foldlM State.push s).isSome = true ↔ s.sp.val + vs.length ≤ 16)

/-! ### Control transfer (41_flow.md) -/

/-- 41_flow.md R151: `1nnn` sets `pc` to `nnn` and changes nothing else. The target is not checked in this cycle,
and an odd one or one below 0x200 cannot be fetched in the next (the spec's decision D5, log entry 22). -/
def Obligations.JumpSetsPcToTheAddress : Prop :=
  ∀ (nnn : Addr) (s : State), decode (wordNNN 0x1 nnn) = .ok (.jp nnn) ∧
    ∃ t, exec (.jp nnn) s = .next t ∧ t.pc.toNat = nnn.toNat ∧ s.changesOnlyPc t ∧
      (nnn.toNat % 2 = 1 ∨ nnn.toNat < 0x200 → t.fetch = none)

/-- 41_flow.md R154 (not masked, the spec's decision D6): `Bnnn` sets `pc` to the sum of `nnn` and `V[0]` and
changes nothing else. -/
def Obligations.IndexedJumpAddsV0 : Prop :=
  ∀ (nnn : Addr) (s : State), decode (wordNNN 0xB nnn) = .ok (.jpV0 nnn) ∧
    ∃ t, exec (.jpV0 nnn) s = .next t ∧ t.pc.toNat = nnn.toNat + (s.getV 0).toNat ∧ s.changesOnlyPc t

/-- 41_flow.md R155, R156: `3xkk` adds 4 to `pc` when `V[x]` = `kk` and 2 when not, `4xkk` the other way round, and
nothing else changes. -/
def Obligations.SkipsOnAnImmediate : Prop :=
  ∀ (x : Reg) (kk : Byte) (s : State),
    (decode (wordXKK 0x3 x kk) = .ok (.seImm x kk) ∧ decode (wordXKK 0x4 x kk) = .ok (.sneImm x kk)) ∧
    (∃ t, exec (.seImm x kk) s = .next t ∧ t.pc = (if s.getV x = kk then s.pc + 4 else s.pc + 2) ∧
      s.changesOnlyPc t) ∧
    (∃ t, exec (.sneImm x kk) s = .next t ∧ t.pc = (if s.getV x ≠ kk then s.pc + 4 else s.pc + 2) ∧
      s.changesOnlyPc t)

/-- 41_flow.md R157, R158: `5xy0` adds 4 to `pc` when `V[x]` = `V[y]` and 2 when not, `9xy0` the other way round,
and nothing else changes; any other low nibble is `UNKNOWN` (the spec's decision D15). -/
def Obligations.SkipsOnARegister : Prop :=
  ∀ (x y : Reg) (s : State),
    (decode (wordXYN 0x5 x y 0) = .ok (.seReg x y) ∧ decode (wordXYN 0x9 x y 0) = .ok (.sneReg x y)) ∧
    (∀ n, n ≠ 0 → decode (wordXYN 0x5 x y n) = .error (.unknown (wordXYN 0x5 x y n)) ∧
      decode (wordXYN 0x9 x y n) = .error (.unknown (wordXYN 0x9 x y n))) ∧
    (∃ t, exec (.seReg x y) s = .next t ∧ t.pc = (if s.getV x = s.getV y then s.pc + 4 else s.pc + 2) ∧
      s.changesOnlyPc t) ∧
    (∃ t, exec (.sneReg x y) s = .next t ∧ t.pc = (if s.getV x ≠ s.getV y then s.pc + 4 else s.pc + 2) ∧
      s.changesOnlyPc t)

/-- 41_flow.md R152: `2nnn` pushes its own address (the spec's decision D4, log entry 27), onto `stack[sp]`, with
`sp` one more (its decision D3, log entry 15), and jumps; with sixteen calls live it raises `StackOverflow`, which
carries the 2nnn word, and nothing changes. -/
def Obligations.CallPushesItsOwnAddress : Prop :=
  ∀ (nnn : Addr) (s : State), decode (wordNNN 0x2 nnn) = .ok (.call nnn) ∧
    (∀ h : s.sp.val < 16, ∃ t, exec (.call nnn) s = .next t ∧ t.stack[s.sp.val] = s.pc ∧
      (∀ k : Fin 16, k.val ≠ s.sp.val → t.stack[k] = s.stack[k]) ∧ t.sp.val = s.sp.val + 1 ∧
      t.pc.toNat = nnn.toNat ∧ t = { s with stack := t.stack, sp := t.sp, pc := t.pc } ∧ s.sameMemory t) ∧
    (s.sp.val = 16 → ∃ t, exec (.call nnn) s = .next t ∧ s.faultedFrom t .stackOverflow .bounds (wordNNN 0x2 nnn))

/-- 41_flow.md R150 (the `+ 2` is the spec's decision D4, log entry 27, `sp` and the entry it names D3, log entry
15): `00EE` pops the call's address and lands two bytes after it; the entry keeps its value; with no call live it
raises `StackUnderflow` and nothing changes. -/
def Obligations.ReturnLandsAfterTheCall : Prop :=
  decode 0x00EE = .ok .ret ∧ ∀ s : State,
    (0 < s.sp.val → ∃ t, exec .ret s = .next t ∧
      (∃ h : s.sp.val - 1 < 16, t.pc = s.stack[s.sp.val - 1] + 2) ∧ t.sp.val = s.sp.val - 1 ∧
      t = { s with sp := t.sp, pc := t.pc } ∧ s.sameMemory t) ∧
    (s.sp.val = 0 → ∃ t, exec .ret s = .next t ∧ s.faultedFrom t .stackUnderflow .bounds 0x00EE)

/-- 41_flow.md R153: a call, whatever balanced work `t'` stands for, and a return give the call's address plus two
and the `sp` from before the call. Balanced work leaves `sp` and the entries below it as the call left them; what it
leaves in the dead entries above `sp`, as a nested call does, and in every other field is free. The `+ 2` is the
spec's decision D4 (log entry 27), `sp` as a count its decision D3 (log entry 15). -/
def Obligations.CallAndReturnPairUp : Prop :=
  ∀ (nnn : Addr) (s t t' : State), s.sp.val < 16 → exec (.call nnn) s = .next t → t'.sp = t.sp →
    (∀ k : Fin 16, k.val < t.sp.val → t'.stack[k] = t.stack[k]) →
    ∃ u, exec .ret t' = .next u ∧ u.pc = s.pc + 2 ∧ u.sp = s.sp

/-! ### Loads and ALU (42_alu.md) -/

/-- 42_alu.md R170, R171: `6xkk` loads `V[x]` with `kk`, `7xkk` adds `kk` to it; the sum is modulo 256 and no flag
is written. -/
def Obligations.ImmediateLoadAndAdd : Prop :=
  ∀ (x : Reg) (kk : Byte) (s : State),
    (decode (wordXKK 0x6 x kk) = .ok (.ldImm x kk) ∧ decode (wordXKK 0x7 x kk) = .ok (.addImm x kk)) ∧
    (∃ t, exec (.ldImm x kk) s = .next t ∧ t.getV x = kk ∧ s.keepsVBut t [x] ∧ t.pc = s.pc + 2 ∧
      s.changesOnlyVPc t) ∧
    (∃ t, exec (.addImm x kk) s = .next t ∧ (t.getV x).toNat = ((s.getV x).toNat + kk.toNat) % 256 ∧
      s.keepsVBut t [x] ∧ t.pc = s.pc + 2 ∧ s.changesOnlyVPc t)

/-- 42_alu.md R172 to R175: `8xy0` to `8xy3` (which nibble is which is the spec's decision D34), bit by bit; VF is
untouched unless it is the destination. -/
def Obligations.CopyAndLogicWriteOnlyVx : Prop :=
  ∀ (x y : Reg) (s : State),
    (decode (wordXYN 0x8 x y 0) = .ok (.ldReg x y) ∧ decode (wordXYN 0x8 x y 1) = .ok (.orReg x y) ∧
      decode (wordXYN 0x8 x y 2) = .ok (.andReg x y) ∧ decode (wordXYN 0x8 x y 3) = .ok (.xorReg x y)) ∧
    (∃ t, exec (.ldReg x y) s = .next t ∧ t.getV x = s.getV y ∧ s.keepsVBut t [x] ∧ t.pc = s.pc + 2 ∧
      s.changesOnlyVPc t) ∧
    (∃ t, exec (.orReg x y) s = .next t ∧
      (∀ k, (t.getV x).getLsbD k = ((s.getV x).getLsbD k || (s.getV y).getLsbD k)) ∧
      s.keepsVBut t [x] ∧ t.pc = s.pc + 2 ∧ s.changesOnlyVPc t) ∧
    (∃ t, exec (.andReg x y) s = .next t ∧
      (∀ k, (t.getV x).getLsbD k = ((s.getV x).getLsbD k && (s.getV y).getLsbD k)) ∧
      s.keepsVBut t [x] ∧ t.pc = s.pc + 2 ∧ s.changesOnlyVPc t) ∧
    (∃ t, exec (.xorReg x y) s = .next t ∧
      (∀ k, (t.getV x).getLsbD k = ((s.getV x).getLsbD k ^^ (s.getV y).getLsbD k)) ∧
      s.keepsVBut t [x] ∧ t.pc = s.pc + 2 ∧ s.changesOnlyVPc t)

/-- 42_alu.md R176: `8xy4`. The flag is written last (the spec's decision D9), so with `x` = 0xF it is what VF
holds. -/
def Obligations.AddWritesSumAndCarry : Prop :=
  ∀ (x y : Reg) (s : State), decode (wordXYN 0x8 x y 4) = .ok (.addReg x y) ∧
    ∃ t, exec (.addReg x y) s = .next t ∧
      (x ≠ Reg.vf → (t.getV x).toNat = ((s.getV x).toNat + (s.getV y).toNat) % 256) ∧
      t.getV Reg.vf = (if 255 < (s.getV x).toNat + (s.getV y).toNat then 0x01 else 0x00) ∧
      s.keepsVBut t [x, Reg.vf] ∧ t.pc = s.pc + 2 ∧ s.changesOnlyVPc t

/-- 42_alu.md R177, R179: `8xy5`, `8xy7` (nibble 7 is the spec's decision D34); equal operands need no borrow (D10),
the flag is written last (D9). -/
def Obligations.SubtractWritesDifferenceAndNotBorrow : Prop :=
  ∀ (x y : Reg) (s : State),
    (decode (wordXYN 0x8 x y 5) = .ok (.subReg x y) ∧ decode (wordXYN 0x8 x y 7) = .ok (.subnReg x y)) ∧
    (∃ t, exec (.subReg x y) s = .next t ∧
      (x ≠ Reg.vf → (t.getV x).toNat = ((s.getV x).toNat + 256 - (s.getV y).toNat) % 256) ∧
      t.getV Reg.vf = (if (s.getV y).toNat ≤ (s.getV x).toNat then 0x01 else 0x00) ∧
      s.keepsVBut t [x, Reg.vf] ∧ t.pc = s.pc + 2 ∧ s.changesOnlyVPc t) ∧
    (∃ t, exec (.subnReg x y) s = .next t ∧
      (x ≠ Reg.vf → (t.getV x).toNat = ((s.getV y).toNat + 256 - (s.getV x).toNat) % 256) ∧
      t.getV Reg.vf = (if (s.getV x).toNat ≤ (s.getV y).toNat then 0x01 else 0x00) ∧
      s.keepsVBut t [x, Reg.vf] ∧ t.pc = s.pc + 2 ∧ s.changesOnlyVPc t)

/-- 42_alu.md R178, R180: `8xy6`, `8xyE` (the nibbles are the spec's decision D34); `V[x]` is shifted in place
whatever `y` is (D8, log entry 11), the flag is the bit pushed out, written last (D9). -/
def Obligations.ShiftsMoveOneBitIntoVF : Prop :=
  ∀ (x y : Reg) (s : State),
    (decode (wordXYN 0x8 x y 6) = .ok (.shr x y) ∧ decode (wordXYN 0x8 x y 0xE) = .ok (.shl x y)) ∧
    (∃ t, exec (.shr x y) s = .next t ∧ (x ≠ Reg.vf → (t.getV x).toNat = (s.getV x).toNat / 2) ∧
      (t.getV Reg.vf).toNat = (s.getV x).toNat % 2 ∧
      s.keepsVBut t [x, Reg.vf] ∧ t.pc = s.pc + 2 ∧ s.changesOnlyVPc t) ∧
    (∃ t, exec (.shl x y) s = .next t ∧ (x ≠ Reg.vf → (t.getV x).toNat = 2 * (s.getV x).toNat % 256) ∧
      (t.getV Reg.vf).toNat = (s.getV x).toNat / 128 ∧
      s.keepsVBut t [x, Reg.vf] ∧ t.pc = s.pc + 2 ∧ s.changesOnlyVPc t)

/-- 42_alu.md R181 (the spec's decision D21): `Cxkk` draws one byte and masks it. The byte is the oldest one offered
on port `rand`, or, with none offered, the free value of log entry 3, a fresh one for each draw; nothing is said of
that value. -/
def Obligations.RandomIsOneDrawUnderTheMask : Prop :=
  ∀ (x : Reg) (kk : Byte) (s : State), decode (wordXKK 0xC x kk) = .ok (.rnd x kk) ∧
    ∃ t, ∃ r : Byte, exec (.rnd x kk) s = .next t ∧ t.getV x = r &&& kk ∧
      (∀ k, kk.getLsbD k = false → (t.getV x).getLsbD k = false) ∧
      ((∃ rest, s.env.rand = r :: rest ∧ t.env = { s.env with rand := rest }) ∨
        (s.env.rand = [] ∧ r = Config.freeRandomByte s.env.draws ∧
          t.env = { s.env with draws := s.env.draws + 1 })) ∧
      s.keepsVBut t [x] ∧ t.pc = s.pc + 2 ∧ t = { s with V := t.V, pc := t.pc, env := t.env } ∧ s.sameMemory t

/-! ### Address register and memory (43_index_memory.md) -/

/-- 43_index_memory.md R200: `Annn` loads `I` with `nnn`, zero-extended, advances, and changes nothing else, for
every `nnn`. -/
def Obligations.LoadAddressRegister : Prop :=
  ∀ (nnn : Addr) (s : State), decode (wordNNN 0xA nnn) = .ok (.ldI nnn) ∧
    ∃ t, exec (.ldI nnn) s = .next t ∧ t.I.toNat = nnn.toNat ∧ t.pc = s.pc + 2 ∧ s.changesOnlyIPc t

/-- 43_index_memory.md R201 (modulo 65536 and never masked, the spec's decision D6) and R202 (the formula on all
eight bits, decision D12): `Fx1E`, `Fx29`; no flag is written. -/
def Obligations.AddressRegisterArithmetic : Prop :=
  ∀ (x : Reg) (s : State),
    (decode (wordXKK 0xF x 0x1E) = .ok (.addI x) ∧ decode (wordXKK 0xF x 0x29) = .ok (.ldF x)) ∧
    (∃ t, exec (.addI x) s = .next t ∧ t.I.toNat = (s.I.toNat + (s.getV x).toNat) % 65536 ∧ t.pc = s.pc + 2 ∧
      s.changesOnlyIPc t) ∧
    (∃ t, exec (.ldF x) s = .next t ∧ t.I.toNat = 0x50 + 5 * (s.getV x).toNat ∧ t.pc = s.pc + 2 ∧
      s.changesOnlyIPc t)

/-- 43_index_memory.md R203: `Fx33` stores the three decimal digits, one in a byte, at `I`, `I+1`, `I+2`. No byte is
written by a faulting one (the spec's decision D16), a fault stands in place of a mask (D6), and a store into 0x000
to 0x1FF or the glyphs is performed (D7, 20_memory.md R64, log entry 12). -/
def Obligations.BcdStoresThreeDigits : Prop :=
  ∀ (x : Reg) (s : State), decode (wordXKK 0xF x 0x33) = .ok (.ldB x) ∧
    (s.ea 2 ≤ 0xFFF → ∃ t, exec (.ldB x) s = .next t ∧
      (∃ h d o : Byte, t.mem.read (s.ea 0) = h ∧ t.mem.read (s.ea 1) = d ∧ t.mem.read (s.ea 2) = o ∧
        100 * h.toNat + 10 * d.toNat + o.toNat = (s.getV x).toNat ∧ h.toNat ≤ 2 ∧ d.toNat ≤ 9 ∧ o.toNat ≤ 9) ∧
      (∀ a, a < s.ea 0 ∨ s.ea 2 < a → t.mem.read a = s.mem.read a) ∧ t.pc = s.pc + 2 ∧
      t = { s with mem := t.mem, pc := t.pc }) ∧
    (0xFFF < s.ea 2 → ∃ t, exec (.ldB x) s = .next t ∧ s.faultedFrom t .memRangeFault .bounds (wordXKK 0xF x 0x33))

/-- 43_index_memory.md R204: `Fx55` stores `V[0]` to `V[x]` at `I` up. `I` is unchanged (the spec's decision D11),
faults are precise (D16), a fault stands in place of a mask (D6), and a store into 0x000 to 0x1FF or the glyphs is
performed (D7, 20_memory.md R64, log entry 12). -/
def Obligations.BlockStoreWritesV0ToVx : Prop :=
  ∀ (x : Reg) (s : State), decode (wordXKK 0xF x 0x55) = .ok (.storeRegs x) ∧
    (s.ea x.val ≤ 0xFFF → ∃ t, exec (.storeRegs x) s = .next t ∧
      (∀ k : Reg, k.val ≤ x.val → t.mem.read (s.ea k.val) = s.getV k) ∧
      (∀ a, a < s.ea 0 ∨ s.ea x.val < a → t.mem.read a = s.mem.read a) ∧ t.pc = s.pc + 2 ∧
      t = { s with mem := t.mem, pc := t.pc }) ∧
    (0xFFF < s.ea x.val → ∃ t, exec (.storeRegs x) s = .next t ∧ s.faultedFrom t .memRangeFault .bounds (wordXKK 0xF x 0x55))

/-- 43_index_memory.md R205 (`I` unchanged, precise faults and a fault in place of a mask, the spec's decisions D11,
D16 and D6): `Fx65` loads `V[0]` to `V[x]` from `I` up and leaves the registers above. -/
def Obligations.BlockLoadReadsV0ToVx : Prop :=
  ∀ (x : Reg) (s : State), decode (wordXKK 0xF x 0x65) = .ok (.loadRegs x) ∧
    (s.ea x.val ≤ 0xFFF → ∃ t, exec (.loadRegs x) s = .next t ∧
      (∀ k : Reg, t.getV k = if k.val ≤ x.val then s.mem.read (s.ea k.val) else s.getV k) ∧ t.pc = s.pc + 2 ∧
      s.changesOnlyVPc t) ∧
    (0xFFF < s.ea x.val → ∃ t, exec (.loadRegs x) s = .next t ∧ s.faultedFrom t .memRangeFault .bounds (wordXKK 0xF x 0x65))

/-- What `Fx55` stores, `Fx65` brings back: with the memory and `I` of the store, the registers up to `V[x]` are
what they were (43_index_memory.md R204, R205). That `I` is unchanged is the spec's decision D11, that a store into
0x000 to 0x1FF or the glyphs is performed its decision D7 (20_memory.md R64, log entry 12). -/
def Obligations.BlockLoadUndoesBlockStore : Prop :=
  ∀ (x : Reg) (s t t' : State), s.ea x.val ≤ 0xFFF → exec (.storeRegs x) s = .next t → t'.mem = t.mem → t'.I = t.I →
    ∃ u, exec (.loadRegs x) t' = .next u ∧ ∀ k : Reg, k.val ≤ x.val → u.getV k = s.getV k

/-- 20_memory.md R76 (the spec's decision D29): a word stored as two registers is what a fetch from there reads, in
the very next cycle too. That the register at the lower address is the high byte is the spec's decision D1 (log
entry 10), that a block store which begins below 0x200 is performed its decision D7 (log entry 12). -/
def Obligations.StoredCodeIsFetched : Prop :=
  ∀ (x k : Reg) (h : k.val + 1 < 16) (s t t' : State), s.ea x.val ≤ 0xFFF → exec (.storeRegs x) s = .next t →
    k.val + 1 ≤ x.val → t'.mem = t.mem → t'.pc.toNat = s.ea k.val → pcLegal t'.pc = true →
    t'.fetch = some (wordOfBytes (s.getV k) (s.getV ⟨k.val + 1, h⟩))

/-! ### Display (44_display.md) -/

/-- 44_display.md R220: `00E0` turns every pixel off and raises `redraw`, on a clear framebuffer too (the spec's
decision D20, log entry 24), and nothing else changes; a second one leaves the same framebuffer. -/
def Obligations.ClearTurnsEveryPixelOff : Prop :=
  decode 0x00E0 = .ok .cls ∧ ∀ s : State, ∃ t u, exec .cls s = .next t ∧ (∀ px py, t.fb.pixel px py = false) ∧
    t.redraw = true ∧ t.pc = s.pc + 2 ∧ t = { s with fb := t.fb, redraw := t.redraw, pc := t.pc } ∧ s.sameMemory t ∧
    exec .cls t = .next u ∧ u.fb = t.fb ∧ u.redraw = true

/-- 44_display.md R221 (precise faults, a fault in place of a mask, `n` = 0 and the unconditional `redraw`, the
spec's decisions D16, D6, D27 and D20): `Dxyn` XORs the sprite onto the pixels, wrapped on both axes, and VF tells
whether a pixel went from on to off. With `x` or `y` = 0xF the old VF is the coordinate, and the collision is
written to VF last, the spec's decision D9 (log entry 14). -/
def Obligations.DrawXorsTheSprite : Prop :=
  ∀ (x y : Reg) (n : Fin 16) (s : State), decode (wordXYN 0xD x y n) = .ok (.drw x y n) ∧
    (n.val = 0 ∨ s.ea n.val - 1 ≤ 0xFFF → ∃ t, exec (.drw x y n) s = .next t ∧
      (∀ px < 64, ∀ py < 32, t.fb.pixel px py =
        (s.fb.pixel px py ^^ s.spriteOver (s.getV x).toNat (s.getV y).toNat n.val px py)) ∧
      (t.getV Reg.vf = 0x01 ∧ (∃ px < 64, ∃ py < 32, s.fb.pixel px py = true ∧
          s.spriteOver (s.getV x).toNat (s.getV y).toNat n.val px py = true) ∨
        t.getV Reg.vf = 0x00 ∧ (∀ px < 64, ∀ py < 32, s.fb.pixel px py = true →
          s.spriteOver (s.getV x).toNat (s.getV y).toNat n.val px py = false)) ∧
      s.keepsVBut t [Reg.vf] ∧ t.redraw = true ∧ t.pc = s.pc + 2 ∧
      t = { s with V := t.V, fb := t.fb, redraw := t.redraw, pc := t.pc } ∧ s.sameMemory t) ∧
    (0 < n.val → 0xFFF < s.ea n.val - 1 → ∃ t, exec (.drw x y n) s = .next t ∧
      s.faultedFrom t .memRangeFault .bounds (wordXYN 0xD x y n))

/-- 44_display.md R222 (with R221's precise faults and `n` = 0, the spec's decisions D16 and D27): drawing the same
sprite twice at the same place restores the framebuffer, and the second draw reports a collision exactly when the
sprite has a 1 bit over a pixel that was off before the first. `t'` is any state with the framebuffer of the first
draw and the same coordinates, `I` and sprite bytes. With `x` or `y` = 0xF the old VF is the coordinate, and the
collision is written last (D9, log entry 14). -/
def Obligations.DrawingTwiceRestoresTheFramebuffer : Prop :=
  ∀ (x y : Reg) (n : Fin 16) (s t t' : State), (n.val = 0 ∨ s.ea n.val - 1 ≤ 0xFFF) → exec (.drw x y n) s = .next t →
    t'.fb = t.fb → t'.getV x = s.getV x → t'.getV y = s.getV y → t'.I = s.I →
    (∀ k, k < n.val → t'.mem.read (s.ea k) = s.mem.read (s.ea k)) →
    ∃ u, exec (.drw x y n) t' = .next u ∧ u.fb = s.fb ∧
      (u.getV Reg.vf = 0x01 ↔ ∃ px < 64, ∃ py < 32, s.fb.pixel px py = false ∧
        s.spriteOver (s.getV x).toNat (s.getV y).toNat n.val px py = true)

/-! ### Keys and timers (45_keys_timers.md) -/

/-- 45_keys_timers.md R230, R231: `Ex9E`, `ExA1`. A key index above 15 is fatal (the spec's decision D13, log entry
20) and then changes nothing else (D16). -/
def Obligations.KeySkipsTestTheLevel : Prop :=
  ∀ (x : Reg) (s : State),
    (decode (wordXKK 0xE x 0x9E) = .ok (.skp x) ∧ decode (wordXKK 0xE x 0xA1) = .ok (.sknp x)) ∧
    (∀ k : Fin 16, (s.getV x).toNat = k.val →
      (∃ t, exec (.skp x) s = .next t ∧ t.pc = (if s.key k = true then s.pc + 4 else s.pc + 2) ∧ s.changesOnlyPc t) ∧
      (∃ t, exec (.sknp x) s = .next t ∧ t.pc = (if s.key k = false then s.pc + 4 else s.pc + 2) ∧
        s.changesOnlyPc t)) ∧
    (15 < (s.getV x).toNat →
      (∃ t, exec (.skp x) s = .next t ∧ s.faultedFrom t .keyIndexFault .bounds (wordXKK 0xE x 0x9E)) ∧
      (∃ t, exec (.sknp x) s = .next t ∧ s.faultedFrom t .keyIndexFault .bounds (wordXKK 0xE x 0xA1)))

/-- 45_keys_timers.md R232 (levels, and the lowest key, the spec's decision D14, log entry 13): `Fx0A` with no key
pressed changes nothing, `pc` included; otherwise it stores the smallest pressed index and advances. -/
def Obligations.KeyWaitTakesTheLowestPressedKey : Prop :=
  ∀ (x : Reg) (s : State), decode (wordXKK 0xF x 0x0A) = .ok (.ldVxK x) ∧
    ((∀ k, s.key k = false) → exec (.ldVxK x) s = .next s) ∧
    (∀ k : Fin 16, s.key k = true → (∀ j : Fin 16, j.val < k.val → s.key j = false) →
      ∃ t, exec (.ldVxK x) s = .next t ∧ (t.getV x).toNat = k.val ∧ s.keepsVBut t [x] ∧ t.pc = s.pc + 2 ∧
        s.changesOnlyVPc t)

/-- 10_state.md R37 (the port is the spec's decision D22; that it is read from the state before the cycle is log
entry 17): `key_wait` is 1 exactly when the cycle's instruction is `Fx0A` and no key is pressed. -/
def Obligations.KeyWaitIsSignalledWhileWaiting : Prop :=
  ∀ s : State, s.keyWait = true ↔
    s.ready ∧ (∃ x, s.fetch = some (encode (.ldVxK x))) ∧ ∀ k, s.key k = false

/-- 45_keys_timers.md R233, R234, R235: `Fx07` copies `DT` to `V[x]`, `Fx15` copies `V[x]` to `DT`, `Fx18` copies
`V[x]` to `ST`; each advances and changes nothing else. -/
def Obligations.TimerInstructionsMoveTheTimers : Prop :=
  ∀ (x : Reg) (s : State),
    (decode (wordXKK 0xF x 0x07) = .ok (.ldVxDT x) ∧ decode (wordXKK 0xF x 0x15) = .ok (.ldDTVx x) ∧
      decode (wordXKK 0xF x 0x18) = .ok (.ldSTVx x)) ∧
    (∃ t, exec (.ldVxDT x) s = .next t ∧ t.getV x = s.DT ∧ s.keepsVBut t [x] ∧ t.pc = s.pc + 2 ∧
      s.changesOnlyVPc t) ∧
    (∃ t, exec (.ldDTVx x) s = .next t ∧ t = { s with DT := s.getV x, pc := s.pc + 2 } ∧ s.sameMemory t) ∧
    (∃ t, exec (.ldSTVx x) s = .next t ∧ t = { s with ST := s.getV x, pc := s.pc + 2 } ∧ s.sameMemory t)

/-! ### The end of a run (70_reset_and_hazards.md) -/

/-- 70_reset_and_hazards.md R293 (a definition of the spec for claims, its decision D30): at its resting point the
engine keeps executing the jump and changes nothing of the CORE. -/
def Obligations.RestingPointStays : Prop :=
  ∀ (s : State) (rest : List Event), s.atRest → s.env.haltReq = false → s.cycleDue rest →
    step s = .next (s.setAgenda rest) ∧ (s.setAgenda rest).atRest
end

