-- ==== Sys2Proof/Laws/Decode.lean ====
section
/-! SUPPORT. The fields of the words that the encoder makes, a word from its fields, the number of a word's kind. -/

namespace Sys2Proof

theorem extract_high {a b c : Nat} (x : BitVec a) (y : BitVec b) (h : c = a) :
    (x ++ y).extractLsb' b c = x.cast h.symm := by
  subst h
  ext k hk
  simp [BitVec.getElem_extractLsb', BitVec.getLsbD_append, BitVec.getLsbD_eq_getElem hk]

theorem extract_low {a b : Nat} (x : BitVec a) (y : BitVec b) (s n : Nat) (h : s + n ≤ b) :
    (x ++ y).extractLsb' s n = y.extractLsb' s n := by
  ext k hk
  simp only [BitVec.getElem_extractLsb', BitVec.getLsbD_append]
  rw [if_pos (by omega)]

theorem extract_all {a : Nat} (x : BitVec a) : x.extractLsb' 0 a = x := by
  ext k hk
  simp

@[simp] theorem opField_wordNNN (op : BitVec 4) (nnn : Addr) : opField (wordNNN op nnn) = op.toFin := by
  rw [opField, wordNNN, extract_high op nnn rfl]; rfl

@[simp] theorem nnnField_wordNNN (op : BitVec 4) (nnn : Addr) : nnnField (wordNNN op nnn) = nnn := by
  rw [nnnField, wordNNN, extract_low op nnn 0 12 (by omega), extract_all]

@[simp] theorem opField_wordXKK (op : BitVec 4) (x : Reg) (kk : Byte) :
    opField (wordXKK op x kk) = op.toFin :=
  opField_wordNNN op _

@[simp] theorem xField_wordXKK (op : BitVec 4) (x : Reg) (kk : Byte) : xField (wordXKK op x kk) = x := by
  have h1 : (wordXKK op x kk).extractLsb' 8 4 = (BitVec.ofFin (w := 4) x ++ kk : Addr).extractLsb' 8 4 :=
    extract_low op _ 8 4 (by omega)
  rw [xField, h1, extract_high (BitVec.ofFin (w := 4) x) kk rfl]; rfl

@[simp] theorem kkField_wordXKK (op : BitVec 4) (x : Reg) (kk : Byte) : kkField (wordXKK op x kk) = kk := by
  have h1 : (wordXKK op x kk).extractLsb' 0 8 = (BitVec.ofFin (w := 4) x ++ kk : Addr).extractLsb' 0 8 :=
    extract_low op _ 0 8 (by omega)
  rw [kkField, h1, extract_low _ kk 0 8 (by omega), extract_all]

@[simp] theorem opField_wordXYN (op : BitVec 4) (x y : Reg) (n : Fin 16) : opField (wordXYN op x y n) = op.toFin :=
  opField_wordXKK op x _

@[simp] theorem xField_wordXYN (op : BitVec 4) (x y : Reg) (n : Fin 16) : xField (wordXYN op x y n) = x :=
  xField_wordXKK op x _

theorem extract_wordXYN (op : BitVec 4) (x y : Reg) (n : Fin 16) (s : Nat) (h : s + 4 ≤ 8) :
    (wordXYN op x y n).extractLsb' s 4 =
      (BitVec.ofFin (w := 4) y ++ BitVec.ofFin (w := 4) n : Byte).extractLsb' s 4 := by
  have h1 : (wordXYN op x y n).extractLsb' s 4 =
      (BitVec.ofFin (w := 4) x ++ (BitVec.ofFin (w := 4) y ++ BitVec.ofFin (w := 4) n : Byte) : Addr).extractLsb' s 4 :=
    extract_low op _ s 4 (by omega)
  rw [h1, extract_low _ _ s 4 (by omega)]

@[simp] theorem yField_wordXYN (op : BitVec 4) (x y : Reg) (n : Fin 16) : yField (wordXYN op x y n) = y := by
  rw [yField, extract_wordXYN op x y n 4 (by omega),
    extract_high (BitVec.ofFin (w := 4) y) (BitVec.ofFin (w := 4) n) rfl]; rfl

@[simp] theorem nField_wordXYN (op : BitVec 4) (x y : Reg) (n : Fin 16) : nField (wordXYN op x y n) = n := by
  rw [nField, extract_wordXYN op x y n 0 (by omega),
    extract_low (BitVec.ofFin (w := 4) y) (BitVec.ofFin (w := 4) n) 0 4 (by omega), extract_all]

/-! ### The fields of a word that is of a row -/

theorem extract_and (a b : Word) (s n : Nat) :
    (a &&& b).extractLsb' s n = a.extractLsb' s n &&& b.extractLsb' s n := by
  ext k hk
  simp

theorem extract_of_mask {w m p : Word} {s n : Nat} (h : w &&& m = p)
    (hm : m.extractLsb' s n = BitVec.allOnes n) : w.extractLsb' s n = p.extractLsb' s n := by
  rw [← h, extract_and, hm, BitVec.and_allOnes]

theorem opField_of_mask {w m p : Word} (h : w &&& m = p) (hm : m.extractLsb' 12 4 = BitVec.allOnes 4) :
    opField w = opField p := by
  rw [opField, extract_of_mask h hm, opField]

theorem nField_of_mask {w m p : Word} (h : w &&& m = p) (hm : m.extractLsb' 0 4 = BitVec.allOnes 4) :
    nField w = nField p := by
  rw [nField, extract_of_mask h hm, nField]

theorem kkField_of_mask {w m p : Word} (h : w &&& m = p) (hm : m.extractLsb' 0 8 = BitVec.allOnes 8) :
    kkField w = kkField p := by
  rw [kkField, extract_of_mask h hm, kkField]

/-- A word is its family nibble and its address field. -/
theorem wordNNN_fields (w : Word) : wordNNN (BitVec.ofFin (w := 4) (opField w)) (nnnField w) = w := by
  have h : (BitVec.ofFin (w := 4) (opField w)) = w.extractLsb' 12 4 := rfl
  rw [wordNNN, h, nnnField]
  ext k hk
  simp only [BitVec.getElem_append, BitVec.getElem_extractLsb']
  split <;> rename_i hlt
  · simp [BitVec.getLsbD_eq_getElem hk]
  · rw [show 12 + (k - 12) = k by omega, BitVec.getLsbD_eq_getElem hk]

/-- A word is its family nibble, its `x` and its low byte. -/
theorem wordXKK_fields (w : Word) : wordXKK (BitVec.ofFin (w := 4) (opField w)) (xField w) (kkField w) = w := by
  have h : (BitVec.ofFin (w := 4) (xField w) ++ kkField w : Addr) = nnnField w := by
    have hx : (BitVec.ofFin (w := 4) (xField w)) = w.extractLsb' 8 4 := rfl
    rw [hx, kkField, nnnField]
    ext k hk
    simp only [BitVec.getElem_append, BitVec.getElem_extractLsb']
    split <;> rename_i hlt
    · rfl
    · rw [show 8 + (k - 8) = 0 + k by omega]
  calc wordXKK (BitVec.ofFin (w := 4) (opField w)) (xField w) (kkField w)
      = wordNNN (BitVec.ofFin (w := 4) (opField w)) (nnnField w) := by rw [← h]; rfl
    _ = w := wordNNN_fields w

/-- A word is its four nibbles. -/
theorem wordXYN_fields (w : Word) :
    wordXYN (BitVec.ofFin (w := 4) (opField w)) (xField w) (yField w) (nField w) = w := by
  have h : (BitVec.ofFin (w := 4) (yField w) ++ BitVec.ofFin (w := 4) (nField w) : Byte) = kkField w := by
    have hy : (BitVec.ofFin (w := 4) (yField w)) = w.extractLsb' 4 4 := rfl
    have hn : (BitVec.ofFin (w := 4) (nField w)) = w.extractLsb' 0 4 := rfl
    rw [hy, hn, kkField]
    ext k hk
    simp only [BitVec.getElem_append, BitVec.getElem_extractLsb']
    split <;> rename_i hlt
    · rfl
    · rw [show 4 + (k - 4) = 0 + k by omega]
  rw [wordXYN, h, wordXKK_fields]

/-- The bytes of a word, high byte first, are the word. -/
@[simp] theorem wordOfBytes_bytes (w : Word) : wordOfBytes (highByte w) (lowByte w) = w := by
  rw [wordOfBytes, highByte, lowByte]
  ext k hk
  simp only [BitVec.getElem_append, BitVec.getElem_extractLsb']
  split <;> rename_i hlt
  · simp [BitVec.getLsbD_eq_getElem hk]
  · rw [show 8 + (k - 8) = k by omega, BitVec.getLsbD_eq_getElem hk]

/-! ### The number of a word's kind -/

/-- The number of an instruction is 1 to 34, so 0 is free for `UNKNOWN`. -/
theorem Instr.kind_range (i : Instr) : 1 ≤ i.kind ∧ i.kind ≤ 34 := by
  cases i <;> simp [Instr.kind]

theorem kindOf_of_ok {w : Word} {i : Instr} (h : decode w = .ok i) : kindOf w = i.kind := by
  simp only [kindOf, h]

theorem kindOf_of_error {w : Word} {e : DecodeError} (h : decode w = .error e) : kindOf w = 0 := by
  simp only [kindOf, h]

/-- A word's kind is one of the 35 numbers, and 0 tells that the word is no instruction. -/
theorem kindOf_cases (w : Word) :
    (∃ i, decode w = .ok i ∧ kindOf w = i.kind ∧ 1 ≤ kindOf w ∧ kindOf w ≤ 34) ∨
    (∃ e, decode w = .error e ∧ kindOf w = 0) := by
  cases h : decode w with
  | ok i => exact .inl ⟨i, rfl, kindOf_of_ok h, by rw [kindOf_of_ok h]; exact i.kind_range⟩
  | error e => exact .inr ⟨e, rfl, kindOf_of_error h⟩

end Sys2Proof
end

