-- ==== Sys2Proof/Laws/Memory.lean ====
section
/-! SUPPORT. The laws of the memory: a byte read after a write, canonical form, equal memories. -/

namespace Sys2Proof.Machine

@[simp] theorem Memory.read_nil (a : Nat) : Memory.read [] a = resetByte a := rfl

@[simp] theorem Memory.read_cons (b : Nat) (v : Byte) (m : Memory) (a : Nat) :
    Memory.read ((b, v) :: m) a = if a = b then v else Memory.read m a := rfl

theorem Memory.read_erase (m : Memory) (a b : Nat) :
    (m.erase a).read b = if b = a then resetByte a else m.read b := by
  induction m with
  | nil => by_cases h : b = a <;> simp [Memory.erase, h]
  | cons c m ih =>
    obtain ⟨k, v⟩ := c
    simp only [Memory.erase] at ih
    by_cases hk : k = a
    · subst hk
      by_cases hb : b = k <;> simp_all [Memory.erase]
    · by_cases hb : b = k
      · subst hb; simp_all [Memory.erase]
      · simp_all [Memory.erase]

theorem Memory.read_insert (m : Memory) (a : Nat) (v : Byte) (b : Nat) (h : m.read a = resetByte a)
    (hn : ∀ c ∈ m, c.1 ≠ a) : (m.insert a v).read b = if b = a then v else m.read b := by
  induction m with
  | nil => simp [Memory.insert]
  | cons c m ih =>
    obtain ⟨k, u⟩ := c
    have hk : k ≠ a := hn (k, u) (by simp)
    have ih := ih (by simpa [Ne.symm hk] using h) fun c hc => hn c (by simp [hc])
    by_cases hlt : a < k
    · simp [Memory.insert, hlt]
    · by_cases hb : b = k
      · subst hb; simp [Memory.insert, hlt, hk]
      · simp [Memory.insert, hlt, ih, hb]

theorem Memory.not_mem_erase (m : Memory) (a : Nat) : ∀ c ∈ m.erase a, c.1 ≠ a := by
  intro c hc
  simpa [Memory.erase] using (List.mem_filter.mp hc).2

/-- What a write does to every byte, in every memory. -/
theorem Memory.read_write (m : Memory) (a : Nat) (v : Byte) (b : Nat) :
    (m.write a v).read b = if b = a then v else m.read b := by
  by_cases hv : v = resetByte a
  · simp only [Memory.write, if_pos hv, Memory.read_erase]
    by_cases hb : b = a <;> simp [hb, hv]
  · rw [Memory.write, if_neg hv, Memory.read_insert _ _ _ _ (by simp [Memory.read_erase]) (m.not_mem_erase a),
      Memory.read_erase]
    by_cases hb : b = a <;> simp [hb]

@[simp] theorem Memory.read_write_same (m : Memory) (a : Nat) (v : Byte) : (m.write a v).read a = v := by
  simp [Memory.read_write]

theorem Memory.read_write_other (m : Memory) {a b : Nat} (v : Byte) (h : b ≠ a) :
    (m.write a v).read b = m.read b := by
  simp [Memory.read_write, h]

@[simp] theorem Memory.readBytes_length (m : Memory) (a n : Nat) : (m.readBytes a n).length = n := by
  induction n generalizing a with
  | zero => rfl
  | succ n ih => simp [Memory.readBytes, ih]

theorem Memory.readBytes_getElem (m : Memory) (a n k : Nat) (h : k < (m.readBytes a n).length) :
    (m.readBytes a n)[k] = m.read (a + k) := by
  induction n generalizing a k with
  | zero => simp [Memory.readBytes] at h
  | succ n ih =>
    cases k with
    | zero => simp [Memory.readBytes]
    | succ k =>
      simp only [Memory.readBytes, List.getElem_cons_succ]
      rw [ih, show a + 1 + k = a + (k + 1) by omega]

/-- What storing consecutive bytes does to every byte. -/
theorem Memory.read_writeBytes (m : Memory) (a : Nat) (vs : List Byte) (b : Nat) :
    (m.writeBytes a vs).read b = if a ≤ b ∧ b < a + vs.length then vs.getD (b - a) 0 else m.read b := by
  induction vs generalizing m a with
  | nil =>
    have : ¬(a ≤ b ∧ b < a + ([] : List Byte).length) := by simp
    simp only [Memory.writeBytes, if_neg this]
  | cons v vs ih =>
    rw [Memory.writeBytes, ih, Memory.read_write]
    by_cases hb : b = a
    · subst hb; simp
    · by_cases h : a + 1 ≤ b ∧ b < a + 1 + vs.length
      · rw [if_pos h, if_pos (by simp; omega), show b - a = (b - (a + 1)) + 1 by omega]
        simp
      · rw [if_neg h, if_neg hb, if_neg (by simp; omega)]

theorem Memory.read_writeBytes_outside (m : Memory) (a : Nat) (vs : List Byte) (b : Nat)
    (h : b < a ∨ a + vs.length ≤ b) : (m.writeBytes a vs).read b = m.read b := by
  rw [Memory.read_writeBytes, if_neg (by omega)]

theorem Memory.read_writeBytes_at (m : Memory) (a : Nat) (vs : List Byte) (k : Nat) (h : k < vs.length) :
    (m.writeBytes a vs).read (a + k) = vs[k] := by
  rw [Memory.read_writeBytes, if_pos (by omega), show a + k - a = k by omega]
  simp [List.getD, h]

/-! ### Canonical form -/

theorem Memory.wfFrom_cons {lo b : Nat} {v : Byte} {m : Memory} :
    Memory.wfFrom lo ((b, v) :: m) = true ↔
      lo ≤ b ∧ b < Config.memSize ∧ v ≠ resetByte b ∧ Memory.wfFrom (b + 1) m = true := by
  simp [Memory.wfFrom, and_assoc]

theorem Memory.wfFrom_mono {lo lo' : Nat} (h : lo' ≤ lo) {m : Memory} (hm : Memory.wfFrom lo m = true) :
    Memory.wfFrom lo' m = true := by
  cases m with
  | nil => rfl
  | cons c m => obtain ⟨b, v⟩ := c; rw [Memory.wfFrom_cons] at hm ⊢; exact ⟨by omega, hm.2⟩

theorem Memory.wfFrom_erase (a : Nat) {lo : Nat} {m : Memory} (h : Memory.wfFrom lo m = true) :
    Memory.wfFrom lo (m.erase a) = true := by
  induction m generalizing lo with
  | nil => rfl
  | cons c m ih =>
    obtain ⟨b, v⟩ := c
    obtain ⟨h1, h2, h3, h4⟩ := Memory.wfFrom_cons.mp h
    by_cases hb : b = a
    · have : Memory.erase ((b, v) :: m) a = Memory.erase m a := by simp [Memory.erase, hb]
      rw [this]
      exact Memory.wfFrom_mono (by omega) (ih h4)
    · have : Memory.erase ((b, v) :: m) a = (b, v) :: Memory.erase m a := by simp [Memory.erase, hb]
      rw [this, Memory.wfFrom_cons]
      exact ⟨h1, h2, h3, ih h4⟩

theorem Memory.wfFrom_insert {a lo : Nat} {v : Byte} {m : Memory} (hlo : lo ≤ a) (ha : a < Config.memSize)
    (hv : v ≠ resetByte a) (hn : ∀ c ∈ m, c.1 ≠ a) (h : Memory.wfFrom lo m = true) :
    Memory.wfFrom lo (m.insert a v) = true := by
  induction m generalizing lo with
  | nil => simp [Memory.insert, Memory.wfFrom, hlo, ha, hv]
  | cons c m ih =>
    obtain ⟨b, u⟩ := c
    obtain ⟨h1, h2, h3, h4⟩ := Memory.wfFrom_cons.mp h
    have hb : b ≠ a := hn (b, u) (by simp)
    by_cases hlt : a < b
    · simp only [Memory.insert, if_pos hlt]
      exact Memory.wfFrom_cons.mpr ⟨hlo, ha, hv, Memory.wfFrom_cons.mpr ⟨hlt, h2, h3, h4⟩⟩
    · simp only [Memory.insert, if_neg hlt]
      exact Memory.wfFrom_cons.mpr ⟨h1, h2, h3, ih (by omega) (fun c hc => hn c (by simp [hc])) h4⟩

/-- A write inside the 4096 bytes keeps the canonical form. -/
theorem Memory.wf_write {m : Memory} {a : Nat} (v : Byte) (ha : a < Config.memSize) (h : m.wf = true) :
    (m.write a v).wf = true := by
  by_cases hv : v = resetByte a
  · rw [Memory.write, if_pos hv]
    exact Memory.wfFrom_erase a h
  · rw [Memory.write, if_neg hv]
    exact Memory.wfFrom_insert (Nat.zero_le a) ha hv (m.not_mem_erase a) (Memory.wfFrom_erase a h)

/-- Consecutive writes inside the 4096 bytes keep the canonical form. -/
theorem Memory.wf_writeBytes {m : Memory} {a : Nat} {vs : List Byte} (ha : a + vs.length ≤ Config.memSize)
    (h : m.wf = true) : (m.writeBytes a vs).wf = true := by
  induction vs generalizing m a with
  | nil => exact h
  | cons v vs ih =>
    simp only [List.length_cons] at ha
    exact ih (by omega) (Memory.wf_write v (by omega) h)

theorem Memory.read_below {lo a : Nat} {m : Memory} (h : Memory.wfFrom lo m = true) (ha : a < lo) :
    m.read a = resetByte a := by
  induction m generalizing lo with
  | nil => rfl
  | cons c m ih =>
    obtain ⟨b, v⟩ := c
    obtain ⟨h1, -, -, h4⟩ := Memory.wfFrom_cons.mp h
    rw [Memory.read_cons, if_neg (by omega)]
    exact ih h4 (by omega)

theorem Memory.wfFrom_ext {lo : Nat} {m m' : Memory} (h : Memory.wfFrom lo m = true)
    (h' : Memory.wfFrom lo m' = true) (heq : ∀ a, m.read a = m'.read a) : m = m' := by
  induction m generalizing lo m' with
  | nil =>
    cases m' with
    | nil => rfl
    | cons c m' =>
      obtain ⟨b, v⟩ := c
      obtain ⟨-, -, hv, -⟩ := Memory.wfFrom_cons.mp h'
      exact absurd (by simpa using (heq b).symm) hv
  | cons c m ih =>
    obtain ⟨b, v⟩ := c
    obtain ⟨h1, h2, hv, h4⟩ := Memory.wfFrom_cons.mp h
    cases m' with
    | nil => exact absurd (by simpa using heq b) hv
    | cons c' m' =>
      obtain ⟨b', v'⟩ := c'
      obtain ⟨h1', h2', hv', h4'⟩ := Memory.wfFrom_cons.mp h'
      have hb : b = b' := by
        rcases Nat.lt_trichotomy b b' with hlt | he | hlt
        · have := heq b
          rw [Memory.read_cons, if_pos rfl, Memory.read_cons, if_neg (by omega),
            Memory.read_below h4' (by omega)] at this
          exact absurd this hv
        · exact he
        · have := heq b'
          rw [Memory.read_cons, if_neg (by omega), Memory.read_cons, if_pos rfl,
            Memory.read_below h4 (by omega)] at this
          exact absurd this.symm hv'
      subst hb
      have hvv : v = v' := by simpa using heq b
      subst hvv
      refine congrArg _ (ih h4 h4' fun a => ?_)
      by_cases ha : a = b
      · subst ha
        rw [Memory.read_below h4 (by omega), Memory.read_below h4' (by omega)]
      · simpa [ha] using heq a

/-- Two memories in canonical form that read alike are the same list. -/
theorem Memory.wf_ext {m m' : Memory} (h : m.wf = true) (h' : m'.wf = true) (heq : ∀ a, m.read a = m'.read a) :
    m = m' :=
  Memory.wfFrom_ext h h' heq

/-- The memory at reset is in canonical form. -/
theorem reset_mem_wf : State.reset.mem.wf = true := rfl

end Sys2Proof.Machine
end

