-- ==== Sys2Proof/Laws/State.lean ====
section
/-! SUPPORT. One lemma for each field of State after each update, so that no proof unfolds a record. -/

namespace Sys2Proof.Machine

variable (s : State)

/-! ### `setV` -/

@[simp] theorem State.setV_V (x : Reg) (v : Byte) : (s.setV x v).V = s.V.set x v := rfl
@[simp] theorem State.setV_I (x : Reg) (v : Byte) : (s.setV x v).I = s.I := rfl
@[simp] theorem State.setV_pc (x : Reg) (v : Byte) : (s.setV x v).pc = s.pc := rfl
@[simp] theorem State.setV_stack (x : Reg) (v : Byte) : (s.setV x v).stack = s.stack := rfl
@[simp] theorem State.setV_sp (x : Reg) (v : Byte) : (s.setV x v).sp = s.sp := rfl
@[simp] theorem State.setV_DT (x : Reg) (v : Byte) : (s.setV x v).DT = s.DT := rfl
@[simp] theorem State.setV_ST (x : Reg) (v : Byte) : (s.setV x v).ST = s.ST := rfl
@[simp] theorem State.setV_fb (x : Reg) (v : Byte) : (s.setV x v).fb = s.fb := rfl
@[simp] theorem State.setV_redraw (x : Reg) (v : Byte) : (s.setV x v).redraw = s.redraw := rfl
@[simp] theorem State.setV_status (x : Reg) (v : Byte) : (s.setV x v).status = s.status := rfl
@[simp] theorem State.setV_err (x : Reg) (v : Byte) : (s.setV x v).err = s.err := rfl
@[simp] theorem State.setV_mem (x : Reg) (v : Byte) : (s.setV x v).mem = s.mem := rfl
@[simp] theorem State.setV_env (x : Reg) (v : Byte) : (s.setV x v).env = s.env := rfl

/-! ### `setI` -/

@[simp] theorem State.setI_V (v : Word) : (s.setI v).V = s.V := rfl
@[simp] theorem State.setI_I (v : Word) : (s.setI v).I = v := rfl
@[simp] theorem State.setI_pc (v : Word) : (s.setI v).pc = s.pc := rfl
@[simp] theorem State.setI_stack (v : Word) : (s.setI v).stack = s.stack := rfl
@[simp] theorem State.setI_sp (v : Word) : (s.setI v).sp = s.sp := rfl
@[simp] theorem State.setI_DT (v : Word) : (s.setI v).DT = s.DT := rfl
@[simp] theorem State.setI_ST (v : Word) : (s.setI v).ST = s.ST := rfl
@[simp] theorem State.setI_fb (v : Word) : (s.setI v).fb = s.fb := rfl
@[simp] theorem State.setI_redraw (v : Word) : (s.setI v).redraw = s.redraw := rfl
@[simp] theorem State.setI_status (v : Word) : (s.setI v).status = s.status := rfl
@[simp] theorem State.setI_err (v : Word) : (s.setI v).err = s.err := rfl
@[simp] theorem State.setI_mem (v : Word) : (s.setI v).mem = s.mem := rfl
@[simp] theorem State.setI_env (v : Word) : (s.setI v).env = s.env := rfl

/-! ### `jumpTo` -/

@[simp] theorem State.jumpTo_V (t : Word) : (s.jumpTo t).V = s.V := rfl
@[simp] theorem State.jumpTo_I (t : Word) : (s.jumpTo t).I = s.I := rfl
@[simp] theorem State.jumpTo_pc (t : Word) : (s.jumpTo t).pc = t := rfl
@[simp] theorem State.jumpTo_stack (t : Word) : (s.jumpTo t).stack = s.stack := rfl
@[simp] theorem State.jumpTo_sp (t : Word) : (s.jumpTo t).sp = s.sp := rfl
@[simp] theorem State.jumpTo_DT (t : Word) : (s.jumpTo t).DT = s.DT := rfl
@[simp] theorem State.jumpTo_ST (t : Word) : (s.jumpTo t).ST = s.ST := rfl
@[simp] theorem State.jumpTo_fb (t : Word) : (s.jumpTo t).fb = s.fb := rfl
@[simp] theorem State.jumpTo_redraw (t : Word) : (s.jumpTo t).redraw = s.redraw := rfl
@[simp] theorem State.jumpTo_status (t : Word) : (s.jumpTo t).status = s.status := rfl
@[simp] theorem State.jumpTo_err (t : Word) : (s.jumpTo t).err = s.err := rfl
@[simp] theorem State.jumpTo_mem (t : Word) : (s.jumpTo t).mem = s.mem := rfl
@[simp] theorem State.jumpTo_env (t : Word) : (s.jumpTo t).env = s.env := rfl

/-! ### `advance` -/

@[simp] theorem State.advance_V : (s.advance).V = s.V := rfl
@[simp] theorem State.advance_I : (s.advance).I = s.I := rfl
@[simp] theorem State.advance_pc : (s.advance).pc = s.pc + 2 := rfl
@[simp] theorem State.advance_stack : (s.advance).stack = s.stack := rfl
@[simp] theorem State.advance_sp : (s.advance).sp = s.sp := rfl
@[simp] theorem State.advance_DT : (s.advance).DT = s.DT := rfl
@[simp] theorem State.advance_ST : (s.advance).ST = s.ST := rfl
@[simp] theorem State.advance_fb : (s.advance).fb = s.fb := rfl
@[simp] theorem State.advance_redraw : (s.advance).redraw = s.redraw := rfl
@[simp] theorem State.advance_status : (s.advance).status = s.status := rfl
@[simp] theorem State.advance_err : (s.advance).err = s.err := rfl
@[simp] theorem State.advance_mem : (s.advance).mem = s.mem := rfl
@[simp] theorem State.advance_env : (s.advance).env = s.env := rfl

/-! ### `skipIf` -/

@[simp] theorem State.skipIf_V (c : Bool) : (s.skipIf c).V = s.V := rfl
@[simp] theorem State.skipIf_I (c : Bool) : (s.skipIf c).I = s.I := rfl
@[simp] theorem State.skipIf_pc (c : Bool) : (s.skipIf c).pc = if c then s.pc + 4 else s.pc + 2 := rfl
@[simp] theorem State.skipIf_stack (c : Bool) : (s.skipIf c).stack = s.stack := rfl
@[simp] theorem State.skipIf_sp (c : Bool) : (s.skipIf c).sp = s.sp := rfl
@[simp] theorem State.skipIf_DT (c : Bool) : (s.skipIf c).DT = s.DT := rfl
@[simp] theorem State.skipIf_ST (c : Bool) : (s.skipIf c).ST = s.ST := rfl
@[simp] theorem State.skipIf_fb (c : Bool) : (s.skipIf c).fb = s.fb := rfl
@[simp] theorem State.skipIf_redraw (c : Bool) : (s.skipIf c).redraw = s.redraw := rfl
@[simp] theorem State.skipIf_status (c : Bool) : (s.skipIf c).status = s.status := rfl
@[simp] theorem State.skipIf_err (c : Bool) : (s.skipIf c).err = s.err := rfl
@[simp] theorem State.skipIf_mem (c : Bool) : (s.skipIf c).mem = s.mem := rfl
@[simp] theorem State.skipIf_env (c : Bool) : (s.skipIf c).env = s.env := rfl

/-! ### `setVF` -/

@[simp] theorem State.setVF_V (f : Bool) : (s.setVF f).V = s.V.set Reg.vf (flagByte f) := rfl
@[simp] theorem State.setVF_I (f : Bool) : (s.setVF f).I = s.I := rfl
@[simp] theorem State.setVF_pc (f : Bool) : (s.setVF f).pc = s.pc := rfl
@[simp] theorem State.setVF_stack (f : Bool) : (s.setVF f).stack = s.stack := rfl
@[simp] theorem State.setVF_sp (f : Bool) : (s.setVF f).sp = s.sp := rfl
@[simp] theorem State.setVF_DT (f : Bool) : (s.setVF f).DT = s.DT := rfl
@[simp] theorem State.setVF_ST (f : Bool) : (s.setVF f).ST = s.ST := rfl
@[simp] theorem State.setVF_fb (f : Bool) : (s.setVF f).fb = s.fb := rfl
@[simp] theorem State.setVF_redraw (f : Bool) : (s.setVF f).redraw = s.redraw := rfl
@[simp] theorem State.setVF_status (f : Bool) : (s.setVF f).status = s.status := rfl
@[simp] theorem State.setVF_err (f : Bool) : (s.setVF f).err = s.err := rfl
@[simp] theorem State.setVF_mem (f : Bool) : (s.setVF f).mem = s.mem := rfl
@[simp] theorem State.setVF_env (f : Bool) : (s.setVF f).env = s.env := rfl

/-! ### `writeResult` -/

@[simp] theorem State.writeResult_V (x : Reg) (r : Byte) : (s.writeResult x r).V = s.V.set x r := rfl
@[simp] theorem State.writeResult_I (x : Reg) (r : Byte) : (s.writeResult x r).I = s.I := rfl
@[simp] theorem State.writeResult_pc (x : Reg) (r : Byte) : (s.writeResult x r).pc = s.pc + 2 := rfl
@[simp] theorem State.writeResult_stack (x : Reg) (r : Byte) : (s.writeResult x r).stack = s.stack := rfl
@[simp] theorem State.writeResult_sp (x : Reg) (r : Byte) : (s.writeResult x r).sp = s.sp := rfl
@[simp] theorem State.writeResult_DT (x : Reg) (r : Byte) : (s.writeResult x r).DT = s.DT := rfl
@[simp] theorem State.writeResult_ST (x : Reg) (r : Byte) : (s.writeResult x r).ST = s.ST := rfl
@[simp] theorem State.writeResult_fb (x : Reg) (r : Byte) : (s.writeResult x r).fb = s.fb := rfl
@[simp] theorem State.writeResult_redraw (x : Reg) (r : Byte) : (s.writeResult x r).redraw = s.redraw := rfl
@[simp] theorem State.writeResult_status (x : Reg) (r : Byte) : (s.writeResult x r).status = s.status := rfl
@[simp] theorem State.writeResult_err (x : Reg) (r : Byte) : (s.writeResult x r).err = s.err := rfl
@[simp] theorem State.writeResult_mem (x : Reg) (r : Byte) : (s.writeResult x r).mem = s.mem := rfl
@[simp] theorem State.writeResult_env (x : Reg) (r : Byte) : (s.writeResult x r).env = s.env := rfl

/-! ### `writeResultFlag` -/

@[simp] theorem State.writeResultFlag_V (x : Reg) (r : Byte) (f : Bool) : (s.writeResultFlag x r f).V = (s.V.set x r).set Reg.vf (flagByte f) := rfl
@[simp] theorem State.writeResultFlag_I (x : Reg) (r : Byte) (f : Bool) : (s.writeResultFlag x r f).I = s.I := rfl
@[simp] theorem State.writeResultFlag_pc (x : Reg) (r : Byte) (f : Bool) : (s.writeResultFlag x r f).pc = s.pc + 2 := rfl
@[simp] theorem State.writeResultFlag_stack (x : Reg) (r : Byte) (f : Bool) : (s.writeResultFlag x r f).stack = s.stack := rfl
@[simp] theorem State.writeResultFlag_sp (x : Reg) (r : Byte) (f : Bool) : (s.writeResultFlag x r f).sp = s.sp := rfl
@[simp] theorem State.writeResultFlag_DT (x : Reg) (r : Byte) (f : Bool) : (s.writeResultFlag x r f).DT = s.DT := rfl
@[simp] theorem State.writeResultFlag_ST (x : Reg) (r : Byte) (f : Bool) : (s.writeResultFlag x r f).ST = s.ST := rfl
@[simp] theorem State.writeResultFlag_fb (x : Reg) (r : Byte) (f : Bool) : (s.writeResultFlag x r f).fb = s.fb := rfl
@[simp] theorem State.writeResultFlag_redraw (x : Reg) (r : Byte) (f : Bool) : (s.writeResultFlag x r f).redraw = s.redraw := rfl
@[simp] theorem State.writeResultFlag_status (x : Reg) (r : Byte) (f : Bool) : (s.writeResultFlag x r f).status = s.status := rfl
@[simp] theorem State.writeResultFlag_err (x : Reg) (r : Byte) (f : Bool) : (s.writeResultFlag x r f).err = s.err := rfl
@[simp] theorem State.writeResultFlag_mem (x : Reg) (r : Byte) (f : Bool) : (s.writeResultFlag x r f).mem = s.mem := rfl
@[simp] theorem State.writeResultFlag_env (x : Reg) (r : Byte) (f : Bool) : (s.writeResultFlag x r f).env = s.env := rfl

/-! ### `loadV` -/

@[simp] theorem State.loadV_V (bs : List Byte) : (s.loadV bs).V = putRegs s.V 0 bs := rfl
@[simp] theorem State.loadV_I (bs : List Byte) : (s.loadV bs).I = s.I := rfl
@[simp] theorem State.loadV_pc (bs : List Byte) : (s.loadV bs).pc = s.pc := rfl
@[simp] theorem State.loadV_stack (bs : List Byte) : (s.loadV bs).stack = s.stack := rfl
@[simp] theorem State.loadV_sp (bs : List Byte) : (s.loadV bs).sp = s.sp := rfl
@[simp] theorem State.loadV_DT (bs : List Byte) : (s.loadV bs).DT = s.DT := rfl
@[simp] theorem State.loadV_ST (bs : List Byte) : (s.loadV bs).ST = s.ST := rfl
@[simp] theorem State.loadV_fb (bs : List Byte) : (s.loadV bs).fb = s.fb := rfl
@[simp] theorem State.loadV_redraw (bs : List Byte) : (s.loadV bs).redraw = s.redraw := rfl
@[simp] theorem State.loadV_status (bs : List Byte) : (s.loadV bs).status = s.status := rfl
@[simp] theorem State.loadV_err (bs : List Byte) : (s.loadV bs).err = s.err := rfl
@[simp] theorem State.loadV_mem (bs : List Byte) : (s.loadV bs).mem = s.mem := rfl
@[simp] theorem State.loadV_env (bs : List Byte) : (s.loadV bs).env = s.env := rfl

/-! ### `drawn` -/

@[simp] theorem State.drawn_V : (s.drawn).V = s.V := rfl
@[simp] theorem State.drawn_I : (s.drawn).I = s.I := rfl
@[simp] theorem State.drawn_pc : (s.drawn).pc = s.pc := rfl
@[simp] theorem State.drawn_stack : (s.drawn).stack = s.stack := rfl
@[simp] theorem State.drawn_sp : (s.drawn).sp = s.sp := rfl
@[simp] theorem State.drawn_DT : (s.drawn).DT = s.DT := rfl
@[simp] theorem State.drawn_ST : (s.drawn).ST = s.ST := rfl
@[simp] theorem State.drawn_fb : (s.drawn).fb = s.fb := rfl
@[simp] theorem State.drawn_redraw : (s.drawn).redraw = s.redraw := rfl
@[simp] theorem State.drawn_status : (s.drawn).status = s.status := rfl
@[simp] theorem State.drawn_err : (s.drawn).err = s.err := rfl
@[simp] theorem State.drawn_mem : (s.drawn).mem = s.mem := rfl
@[simp] theorem State.drawn_env : (s.drawn).env = s.env.drawn := rfl

/-! ### `fatal` -/

@[simp] theorem State.fatal_V (c : ErrCause) (w : Word) : (s.fatal c w).V = s.V := rfl
@[simp] theorem State.fatal_I (c : ErrCause) (w : Word) : (s.fatal c w).I = s.I := rfl
@[simp] theorem State.fatal_pc (c : ErrCause) (w : Word) : (s.fatal c w).pc = s.pc := rfl
@[simp] theorem State.fatal_stack (c : ErrCause) (w : Word) : (s.fatal c w).stack = s.stack := rfl
@[simp] theorem State.fatal_sp (c : ErrCause) (w : Word) : (s.fatal c w).sp = s.sp := rfl
@[simp] theorem State.fatal_DT (c : ErrCause) (w : Word) : (s.fatal c w).DT = s.DT := rfl
@[simp] theorem State.fatal_ST (c : ErrCause) (w : Word) : (s.fatal c w).ST = s.ST := rfl
@[simp] theorem State.fatal_fb (c : ErrCause) (w : Word) : (s.fatal c w).fb = s.fb := rfl
@[simp] theorem State.fatal_redraw (c : ErrCause) (w : Word) : (s.fatal c w).redraw = s.redraw := rfl
@[simp] theorem State.fatal_status (c : ErrCause) (w : Word) : (s.fatal c w).status = .faulted := rfl
@[simp] theorem State.fatal_err (c : ErrCause) (w : Word) : (s.fatal c w).err = ⟨c, c.cls, w, s.pc⟩ := rfl
@[simp] theorem State.fatal_mem (c : ErrCause) (w : Word) : (s.fatal c w).mem = s.mem := rfl
@[simp] theorem State.fatal_env (c : ErrCause) (w : Word) : (s.fatal c w).env = s.env := rfl

/-! ### `setFb` -/

@[simp] theorem State.setFb_V (fb : Framebuffer) : (s.setFb fb).V = s.V := rfl
@[simp] theorem State.setFb_I (fb : Framebuffer) : (s.setFb fb).I = s.I := rfl
@[simp] theorem State.setFb_pc (fb : Framebuffer) : (s.setFb fb).pc = s.pc := rfl
@[simp] theorem State.setFb_stack (fb : Framebuffer) : (s.setFb fb).stack = s.stack := rfl
@[simp] theorem State.setFb_sp (fb : Framebuffer) : (s.setFb fb).sp = s.sp := rfl
@[simp] theorem State.setFb_DT (fb : Framebuffer) : (s.setFb fb).DT = s.DT := rfl
@[simp] theorem State.setFb_ST (fb : Framebuffer) : (s.setFb fb).ST = s.ST := rfl
@[simp] theorem State.setFb_fb (fb : Framebuffer) : (s.setFb fb).fb = fb := rfl
@[simp] theorem State.setFb_redraw (fb : Framebuffer) : (s.setFb fb).redraw = s.redraw := rfl
@[simp] theorem State.setFb_status (fb : Framebuffer) : (s.setFb fb).status = s.status := rfl
@[simp] theorem State.setFb_err (fb : Framebuffer) : (s.setFb fb).err = s.err := rfl
@[simp] theorem State.setFb_mem (fb : Framebuffer) : (s.setFb fb).mem = s.mem := rfl
@[simp] theorem State.setFb_env (fb : Framebuffer) : (s.setFb fb).env = s.env := rfl

/-! ### `raiseRedraw` -/

@[simp] theorem State.raiseRedraw_V : (s.raiseRedraw).V = s.V := rfl
@[simp] theorem State.raiseRedraw_I : (s.raiseRedraw).I = s.I := rfl
@[simp] theorem State.raiseRedraw_pc : (s.raiseRedraw).pc = s.pc := rfl
@[simp] theorem State.raiseRedraw_stack : (s.raiseRedraw).stack = s.stack := rfl
@[simp] theorem State.raiseRedraw_sp : (s.raiseRedraw).sp = s.sp := rfl
@[simp] theorem State.raiseRedraw_DT : (s.raiseRedraw).DT = s.DT := rfl
@[simp] theorem State.raiseRedraw_ST : (s.raiseRedraw).ST = s.ST := rfl
@[simp] theorem State.raiseRedraw_fb : (s.raiseRedraw).fb = s.fb := rfl
@[simp] theorem State.raiseRedraw_redraw : (s.raiseRedraw).redraw = true := rfl
@[simp] theorem State.raiseRedraw_status : (s.raiseRedraw).status = s.status := rfl
@[simp] theorem State.raiseRedraw_err : (s.raiseRedraw).err = s.err := rfl
@[simp] theorem State.raiseRedraw_mem : (s.raiseRedraw).mem = s.mem := rfl
@[simp] theorem State.raiseRedraw_env : (s.raiseRedraw).env = s.env := rfl

/-! ### `setAgenda` -/

@[simp] theorem State.setAgenda_V (l : List Event) : (s.setAgenda l).V = s.V := rfl
@[simp] theorem State.setAgenda_I (l : List Event) : (s.setAgenda l).I = s.I := rfl
@[simp] theorem State.setAgenda_pc (l : List Event) : (s.setAgenda l).pc = s.pc := rfl
@[simp] theorem State.setAgenda_stack (l : List Event) : (s.setAgenda l).stack = s.stack := rfl
@[simp] theorem State.setAgenda_sp (l : List Event) : (s.setAgenda l).sp = s.sp := rfl
@[simp] theorem State.setAgenda_DT (l : List Event) : (s.setAgenda l).DT = s.DT := rfl
@[simp] theorem State.setAgenda_ST (l : List Event) : (s.setAgenda l).ST = s.ST := rfl
@[simp] theorem State.setAgenda_fb (l : List Event) : (s.setAgenda l).fb = s.fb := rfl
@[simp] theorem State.setAgenda_redraw (l : List Event) : (s.setAgenda l).redraw = s.redraw := rfl
@[simp] theorem State.setAgenda_status (l : List Event) : (s.setAgenda l).status = s.status := rfl
@[simp] theorem State.setAgenda_err (l : List Event) : (s.setAgenda l).err = s.err := rfl
@[simp] theorem State.setAgenda_mem (l : List Event) : (s.setAgenda l).mem = s.mem := rfl
@[simp] theorem State.setAgenda_env (l : List Event) : (s.setAgenda l).env = { s.env with agenda := l } := rfl

/-! ### Reading a register after an update -/

theorem State.getV_setV (x : Reg) (v : Byte) (r : Reg) : (s.setV x v).getV r = if r = x then v else s.getV r := by
  by_cases h : r = x
  · subst h; simp [State.getV]
  · rw [if_neg h]
    have : x.val ≠ r.val := fun e => h (Fin.ext e.symm)
    simp [State.getV, this]

@[simp] theorem State.getV_setV_same (x : Reg) (v : Byte) : (s.setV x v).getV x = v := by
  simp [State.getV_setV]

theorem State.getV_setV_other {x r : Reg} (v : Byte) (h : r ≠ x) : (s.setV x v).getV r = s.getV r := by
  simp [State.getV_setV, h]

theorem State.getV_setVF (f : Bool) (r : Reg) :
    (s.setVF f).getV r = if r = Reg.vf then flagByte f else s.getV r :=
  s.getV_setV Reg.vf (flagByte f) r

theorem State.getV_writeResult (x : Reg) (v : Byte) (r : Reg) :
    (s.writeResult x v).getV r = if r = x then v else s.getV r :=
  s.getV_setV x v r

/-- The flag is the last write: VF holds it whatever the destination is. -/
theorem State.getV_writeResultFlag (x : Reg) (v : Byte) (f : Bool) (r : Reg) :
    (s.writeResultFlag x v f).getV r = if r = Reg.vf then flagByte f else if r = x then v else s.getV r := by
  have h : (s.writeResultFlag x v f).getV r = ((s.setV x v).setVF f).getV r := rfl
  rw [h, State.getV_setVF, State.getV_setV]

@[simp] theorem State.getV_setI (v : Word) (r : Reg) : (s.setI v).getV r = s.getV r := rfl
@[simp] theorem State.getV_jumpTo (t : Word) (r : Reg) : (s.jumpTo t).getV r = s.getV r := rfl
@[simp] theorem State.getV_advance (r : Reg) : (s.advance).getV r = s.getV r := rfl
@[simp] theorem State.getV_skipIf (c : Bool) (r : Reg) : (s.skipIf c).getV r = s.getV r := rfl
@[simp] theorem State.getV_drawn (r : Reg) : (s.drawn).getV r = s.getV r := rfl
@[simp] theorem State.getV_fatal (c : ErrCause) (w : Word) (r : Reg) : (s.fatal c w).getV r = s.getV r := rfl
@[simp] theorem State.getV_setFb (fb : Framebuffer) (r : Reg) : (s.setFb fb).getV r = s.getV r := rfl
@[simp] theorem State.getV_raiseRedraw (r : Reg) : (s.raiseRedraw).getV r = s.getV r := rfl
@[simp] theorem State.getV_setAgenda (l : List Event) (r : Reg) : (s.setAgenda l).getV r = s.getV r := rfl

/-- Two states with the same registers by number have the same register file. -/
theorem State.V_ext {s t : State} (h : ∀ r, s.getV r = t.getV r) : s.V = t.V := by
  refine Vector.ext fun k hk => ?_
  simpa [State.getV] using h ⟨k, hk⟩

end Sys2Proof.Machine
end

