-- ==== Sys2Proof/Laws/Display.lean ====
section
/-! SUPPORT. The laws of the framebuffer: a pixel after a toggle, equal framebuffers, a drawn sprite. -/

namespace Sys2Proof.Machine

/-- A pixel depends on its wrapped coordinates. -/
theorem Framebuffer.pixel_mod (fb : Framebuffer) (x y : Nat) : fb.pixel (x % 64) (y % 32) = fb.pixel x y := by
  simp [Framebuffer.pixel]

/-- A toggle changes the pixel at its wrapped coordinates and no other. -/
theorem Framebuffer.pixel_toggle (fb : Framebuffer) (x y x' y' : Nat) :
    (fb.toggle x y).pixel x' y' =
      (fb.pixel x' y' ^^ decide (x' % 64 = x % 64 ∧ y' % 32 = y % 32)) := by
  have hx' : x' % 64 < 64 := Nat.mod_lt _ (by decide)
  by_cases hy : y' % 32 = y % 32
  · simp only [Framebuffer.pixel, Framebuffer.toggle, hy, Vector.getElem_set_self, BitVec.getLsbD_xor, and_true]
    congr 1
    by_cases hx : x' % 64 = x % 64
    · simp [hx, Nat.mod_lt]
    · simp only [BitVec.getLsbD_shiftLeft, hx', decide_true, Bool.true_and, hx, decide_false]
      by_cases hlt : x' % 64 < x % 64
      · simp [hlt]
      · simp [hlt, BitVec.getLsbD_one]; omega
  · simp only [Framebuffer.pixel, Framebuffer.toggle, hy, and_false, decide_false, Bool.xor_false]
    rw [Vector.getElem_set_ne _ _ (fun e => hy e.symm)]

@[simp] theorem Framebuffer.pixel_clear (x y : Nat) : Framebuffer.clear.pixel x y = false := by
  simp [Framebuffer.pixel, Framebuffer.clear]

/-- Framebuffers with the same 2048 pixels are the same. -/
theorem Framebuffer.ext_pixel {fb fb' : Framebuffer} (h : ∀ x < 64, ∀ y < 32, fb.pixel x y = fb'.pixel x y) :
    fb = fb' := by
  refine Vector.ext fun y hy => BitVec.eq_of_getLsbD_eq fun x hx => ?_
  have := h x hx y hy
  simpa [Framebuffer.pixel, Nat.mod_eq_of_lt hx, Nat.mod_eq_of_lt hy] using this

/-- One bit of a sprite: its pixel is toggled when the bit is 1, and a toggled pixel that was on is a hit. -/
theorem Drawing.bit_cases (d : Drawing) (x y : Nat) (b : Bool) :
    (b = false ∧ d.bit x y b = d) ∨
    (b = true ∧ d.bit x y b = ⟨d.fb.toggle x y, d.hit || d.fb.pixel x y⟩) := by
  cases b
  · exact .inl ⟨rfl, rfl⟩
  · exact .inr ⟨rfl, rfl⟩

/-! ### A drawn sprite -/

/-- The column of a sprite drawn from `x` that falls on pixel column `px`. -/
theorem col_iff {x px c : Nat} (hp : px < 64) (hc : c < 64) :
    (px + 64 - x % 64) % 64 = c ↔ px = (x + c) % 64 := by omega

/-- Whether the byte `b`, drawn from `(x, y)`, has among its columns `col` to `col + k - 1` a 1 bit over a pixel. -/
def byteOver (x y : Nat) (b : Byte) (col k px py : Nat) : Bool :=
  let c := (px + 64 - x % 64) % 64
  decide (py = y % 32) && decide (col ≤ c ∧ c < col + k) && b.getLsbD (7 - c)

theorem byteOver_zero (x y : Nat) (b : Byte) (col px py : Nat) : byteOver x y b col 0 px py = false := by
  simp [byteOver]

theorem byteOver_succ {x y : Nat} {b : Byte} {col k px py : Nat} (hx : px < 64) (hc : col < 64) :
    byteOver x y b col (k + 1) px py =
      ((b.getLsbD (7 - col) && decide (px = (x + col) % 64 ∧ py = y % 32)) ^^ byteOver x y b (col + 1) k px py) := by
  by_cases hy : py = y % 32
  · by_cases h : px = (x + col) % 64
    · have h' := (col_iff hx hc).mpr h
      simp only [byteOver, h']
      simp [hy, h]
    · have h' : (px + 64 - x % 64) % 64 ≠ col := fun e => h ((col_iff hx hc).mp e)
      have : (col ≤ (px + 64 - x % 64) % 64 ∧ (px + 64 - x % 64) % 64 < col + (k + 1)) ↔
        (col + 1 ≤ (px + 64 - x % 64) % 64 ∧ (px + 64 - x % 64) % 64 < col + 1 + k) := by omega
      simp only [byteOver, this, hy, h, false_and, decide_false, Bool.and_false, Bool.false_xor]
  · simp [byteOver, hy]

theorem Drawing.bit_pixel (d : Drawing) (x y : Nat) (b : Bool) {px py : Nat} (hx : px < 64) (hy : py < 32) :
    (d.bit x y b).fb.pixel px py = (d.fb.pixel px py ^^ (b && decide (px = x % 64 ∧ py = y % 32))) := by
  rcases d.bit_cases x y b with ⟨rfl, h⟩ | ⟨rfl, h⟩ <;> rw [h]
  · simp
  · simp [Framebuffer.pixel_toggle, Nat.mod_eq_of_lt hx, Nat.mod_eq_of_lt hy]

theorem Drawing.bit_hit (d : Drawing) (x y : Nat) (b : Bool) :
    (d.bit x y b).hit = (d.hit || (b && d.fb.pixel x y)) := by
  rcases d.bit_cases x y b with ⟨rfl, h⟩ | ⟨rfl, h⟩ <;> rw [h] <;> simp

/-- Drawing a byte's columns XORs them onto the pixels. -/
theorem Drawing.bits_pixel (d : Drawing) (x y : Nat) (b : Byte) (col k : Nat) (hk : col + k ≤ 8) {px py : Nat}
    (hx : px < 64) (hy : py < 32) :
    (d.bits x y b col k).fb.pixel px py = (d.fb.pixel px py ^^ byteOver x y b col k px py) := by
  induction k generalizing d col with
  | zero => simp [Drawing.bits, byteOver_zero]
  | succ k ih =>
    rw [Drawing.bits, ih _ (col + 1) (by omega), Drawing.bit_pixel _ _ _ _ hx hy, byteOver_succ hx (by omega),
      Bool.xor_assoc]

/-- Drawing a byte's columns hits when one of its 1 bits falls on a pixel that was on. -/
theorem Drawing.bits_hit (d : Drawing) (x y : Nat) (b : Byte) (col k : Nat) (hk : col + k ≤ 8) :
    (d.bits x y b col k).hit = true ↔
      d.hit = true ∨ ∃ px < 64, ∃ py < 32, d.fb.pixel px py = true ∧ byteOver x y b col k px py = true := by
  induction k generalizing d col with
  | zero => simp [Drawing.bits, byteOver_zero]
  | succ k ih =>
    rw [Drawing.bits, ih _ (col + 1) (by omega), Drawing.bit_hit]
    constructor
    · rintro (h | ⟨px, hx, py, hy, h1, h2⟩)
      · simp only [Bool.or_eq_true, Bool.and_eq_true] at h
        rcases h with h | ⟨hb, hp⟩
        · exact .inl h
        · refine .inr ⟨(x + col) % 64, Nat.mod_lt _ (by decide), y % 32, Nat.mod_lt _ (by decide), ?_, ?_⟩
          · rw [Framebuffer.pixel_mod]; exact hp
          · have := (col_iff (x := x) (Nat.mod_lt (x + col) (by decide)) (show col < 64 by omega)).mpr rfl
            simp [byteOver, this, hb]
      · have hn : (px + 64 - x % 64) % 64 ≠ col := by
          intro e; simp only [byteOver, e] at h2; simp at h2
        have hn' : px ≠ (x + col) % 64 := fun e => hn ((col_iff hx (by omega)).mpr e)
        rw [Drawing.bit_pixel _ _ _ _ hx hy] at h1
        refine .inr ⟨px, hx, py, hy, by simpa [hn'] using h1, ?_⟩
        rw [byteOver_succ hx (by omega)]; simpa [hn'] using h2
    · rintro (h | ⟨px, hx, py, hy, h1, h2⟩)
      · exact .inl (by simp [h])
      · by_cases e : px = (x + col) % 64
        · have hc := (col_iff hx (show col < 64 by omega)).mpr e
          simp only [byteOver, hc] at h2
          simp only [Bool.and_eq_true, decide_eq_true_eq] at h2
          left
          obtain ⟨⟨h3, -⟩, h4⟩ := h2
          subst e h3
          rw [Framebuffer.pixel_mod] at h1
          simp [h4, h1]
        · rw [byteOver_succ hx (by omega)] at h2
          refine .inr ⟨px, hx, py, hy, ?_, by simpa [e] using h2⟩
          rw [Drawing.bit_pixel _ _ _ _ hx hy]; simpa [e] using h1

/-- Whether a sprite, drawn from `(x, y)`, has a 1 bit over a pixel. -/
def rowsOver (x y : Nat) (sprite : List Byte) (px py : Nat) : Bool :=
  let c := (px + 64 - x % 64) % 64
  let r := (py + 32 - y % 32) % 32
  decide (c < 8) && decide (r < sprite.length) && (sprite.getD r 0).getLsbD (7 - c)

theorem rowsOver_cons {x y : Nat} {b : Byte} {bs : List Byte} {px py : Nat} (hy : py < 32) (hl : bs.length < 32) :
    rowsOver x y (b :: bs) px py = (byteOver x y b 0 8 px py ^^ rowsOver x (y + 1) bs px py) := by
  by_cases h : py = y % 32
  · have h0 : (py + 32 - y % 32) % 32 = 0 := by omega
    have h1 : (py + 32 - (y + 1) % 32) % 32 = 31 := by omega
    have h2 : ¬ 31 < bs.length := by omega
    simp only [rowsOver, byteOver, h0, h1, h2]
    simp [h]
  · have h0 : (py + 32 - y % 32) % 32 = (py + 32 - (y + 1) % 32) % 32 + 1 := by omega
    simp only [rowsOver, byteOver, h0, h]
    simp

/-- The two bits of a sprite over one pixel are in one row only. -/
theorem rowsOver_disjoint {x y : Nat} {b : Byte} {bs : List Byte} {px py : Nat} (hy : py < 32) (hl : bs.length < 32)
    (h : byteOver x y b 0 8 px py = true) : rowsOver x (y + 1) bs px py = false := by
  have h1 : py = y % 32 := by simp [byteOver] at h; exact h.1.1
  have h2 : (py + 32 - (y + 1) % 32) % 32 = 31 := by omega
  have h3 : ¬ 31 < bs.length := by omega
  simp [rowsOver, h2, h3]

/-- Drawing a sprite XORs its bits onto the pixels. -/
theorem Drawing.rows_pixel (d : Drawing) (x y : Nat) (sprite : List Byte) (hl : sprite.length ≤ 32) {px py : Nat}
    (hx : px < 64) (hy : py < 32) :
    (d.rows x y sprite).fb.pixel px py = (d.fb.pixel px py ^^ rowsOver x y sprite px py) := by
  induction sprite generalizing d y with
  | nil => simp [Drawing.rows, rowsOver]
  | cons b bs ih =>
    simp only [List.length_cons] at hl
    rw [Drawing.rows, ih _ (y + 1) (by omega), Drawing.bits_pixel d x y b 0 8 (by decide) hx hy,
      rowsOver_cons hy (by omega), Bool.xor_assoc]

/-- Drawing a sprite hits when one of its 1 bits falls on a pixel that was on. -/
theorem Drawing.rows_hit (d : Drawing) (x y : Nat) (sprite : List Byte) (hl : sprite.length ≤ 32) :
    (d.rows x y sprite).hit = true ↔
      d.hit = true ∨ ∃ px < 64, ∃ py < 32, d.fb.pixel px py = true ∧ rowsOver x y sprite px py = true := by
  induction sprite generalizing d y with
  | nil => simp [Drawing.rows, rowsOver]
  | cons b bs ih =>
    simp only [List.length_cons] at hl
    rw [Drawing.rows, ih _ (y + 1) (by omega), Drawing.bits_hit d x y b 0 8 (by decide), or_assoc]
    refine or_congr_right ⟨?_, ?_⟩
    · rintro (⟨px, hx, py, hy, h1, h2⟩ | ⟨px, hx, py, hy, h1, h2⟩) <;> refine ⟨px, hx, py, hy, ?_⟩
      · exact ⟨h1, by rw [rowsOver_cons hy (by omega), rowsOver_disjoint hy (by omega) h2, h2]; rfl⟩
      · have hb : byteOver x y b 0 8 px py = false := by
          by_contra hb
          rw [rowsOver_disjoint hy (by omega) (by simpa using hb)] at h2
          exact absurd h2 (by decide)
        rw [Drawing.bits_pixel d x y b 0 8 (by decide) hx hy, hb] at h1
        exact ⟨by simpa using h1, by rw [rowsOver_cons hy (by omega), hb, h2]; rfl⟩
    · rintro ⟨px, hx, py, hy, h1, h2⟩
      rw [rowsOver_cons hy (by omega)] at h2
      by_cases hb : byteOver x y b 0 8 px py = true
      · exact .inl ⟨px, hx, py, hy, h1, hb⟩
      · have hb : byteOver x y b 0 8 px py = false := by simpa using hb
        rw [hb, Bool.false_xor] at h2
        refine .inr ⟨px, hx, py, hy, ?_, h2⟩
        rw [Drawing.bits_pixel d x y b 0 8 (by decide) hx hy, hb, h1]; rfl

/-- The sprite that an instruction reads at `I` has the bits that `spriteOver` tells of. -/
theorem State.rowsOver_readBytes (s : State) (x y n px py : Nat) :
    rowsOver x y (s.mem.readBytes (s.ea 0) n) px py = s.spriteOver x y n px py := by
  simp only [rowsOver, State.spriteOver, Memory.readBytes_length]
  by_cases h : (py + 32 - y % 32) % 32 < n
  · rw [List.getD_eq_getElem _ _ (by simpa using h), Memory.readBytes_getElem]
    simp [State.ea]
  · simp [h]

end Sys2Proof.Machine
end

