-- ==== Sys2Proof/Laws/Ops.lean ====
section
/-! SUPPORT. One lemma for each shared operation that says once what it can do. -/

namespace Sys2Proof.Machine

/-! ### Data accesses -/

theorem rangeOk_iff {a n : Nat} : rangeOk a n = true ↔ n = 0 ∨ a + n ≤ Config.memSize := by
  simp only [rangeOk, decide_eq_true_eq, Config.memSize]; omega

/-- A read either takes every byte of its range or finds the range too high. -/
theorem State.memRead_cases (s : State) (a n : Nat) :
    (rangeOk a n = true ∧ s.memRead a n = some (s.mem.readBytes a n)) ∨
    (rangeOk a n = false ∧ s.memRead a n = none) := by
  cases h : rangeOk a n <;> simp [State.memRead, h]

/-- A store either writes every byte of its range, and only memory, or finds the range too high. -/
theorem State.memWrite_cases (s : State) (a : Nat) (bytes : List Byte) :
    (rangeOk a bytes.length = true ∧ s.memWrite a bytes = some { s with mem := s.mem.writeBytes a bytes }) ∨
    (rangeOk a bytes.length = false ∧ s.memWrite a bytes = none) := by
  cases h : rangeOk a bytes.length <;> simp [State.memWrite, h]

/-- A store keeps the memory's canonical form. -/
theorem State.memWrite_wf {s t : State} {a : Nat} {bytes : List Byte} (h : s.memWrite a bytes = some t)
    (hw : s.mem.wf = true) : t.mem.wf = true := by
  rcases s.memWrite_cases a bytes with ⟨hr, he⟩ | ⟨-, he⟩ <;> rw [he] at h <;> cases h
  rcases rangeOk_iff.mp hr with h0 | h0
  · rw [List.length_eq_zero_iff.mp h0]
    exact hw
  · exact Memory.wf_writeBytes h0 hw

theorem State.regsUpTo_length (s : State) (x : Reg) : (s.regsUpTo x).length = x.val + 1 := by
  have := x.isLt
  simp [State.regsUpTo]

theorem State.regsUpTo_getElem (s : State) (x k : Reg) (h : k.val < (s.regsUpTo x).length) :
    (s.regsUpTo x)[k.val] = s.getV k := by
  simp [State.regsUpTo, State.getV]

theorem putRegs_getElem (V : Vector Byte 16) (k : Nat) (vs : List Byte) (r : Nat) (hr : r < 16) :
    (putRegs V k vs)[r] = if k ≤ r ∧ r < k + vs.length then vs.getD (r - k) 0 else V[r] := by
  induction vs generalizing V k with
  | nil => rw [putRegs, if_neg (by simp)]
  | cons v vs ih =>
    rw [putRegs, ih]
    by_cases hb : r = k
    · subst hb; simp
    · by_cases h : k + 1 ≤ r ∧ r < k + 1 + vs.length
      · rw [if_pos h, if_pos (by simp; omega), show r - k = (r - (k + 1)) + 1 by omega]
        simp
      · rw [if_neg h, if_neg (by simp; omega), Vector.getElem_setIfInBounds_ne _ (fun e => hb e.symm)]

/-- A block load gives the first registers the bytes and leaves the others. -/
theorem State.getV_loadV (s : State) (bytes : List Byte) (r : Reg) :
    (s.loadV bytes).getV r = if r.val < bytes.length then bytes.getD r.val 0 else s.getV r := by
  have h := putRegs_getElem s.V 0 bytes r.val r.isLt
  simpa [State.getV, State.loadV] using h

/-! ### The call stack -/

/-- A push either puts the entry on top or finds sixteen calls live. -/
theorem State.push_cases (s : State) (v : Word) :
    (∃ h : s.sp.val < 16, s.push v =
      some { s with stack := s.stack.set s.sp.val v, sp := ⟨s.sp.val + 1, by omega⟩ }) ∨
    (s.sp.val = 16 ∧ s.push v = none) := by
  by_cases h : s.sp.val < 16
  · exact .inl ⟨h, by simp [State.push, h]⟩
  · have := s.sp.isLt
    exact .inr ⟨by omega, by simp [State.push, h]⟩

/-- A pop either takes the top entry, which keeps its value, or finds no call live. -/
theorem State.pop_cases (s : State) :
    (∃ h : 0 < s.sp.val, s.pop =
      some (s.stack[s.sp.val - 1]'(by have := s.sp.isLt; omega),
        { s with sp := ⟨s.sp.val - 1, by have := s.sp.isLt; omega⟩ })) ∨
    (s.sp.val = 0 ∧ s.pop = none) := by
  by_cases h : 0 < s.sp.val
  · exact .inl ⟨h, by simp [State.pop, h]⟩
  · exact .inr ⟨by omega, by simp [State.pop, h]⟩

/-! ### The random byte -/

/-- A draw takes the oldest offered byte, or is free and counts. -/
theorem State.drawn_cases (s : State) :
    (∃ r rest, s.env.rand = r :: rest ∧ s.randomByte = r ∧ s.drawn = { s with env := { s.env with rand := rest } }) ∨
    (s.env.rand = [] ∧ s.randomByte = Config.freeRandomByte s.env.draws ∧
      s.drawn = { s with env := { s.env with draws := s.env.draws + 1 } }) := by
  cases h : s.env.rand with
  | nil => exact .inr ⟨rfl, by simp [State.randomByte, h], by simp [State.drawn, Env.drawn, h]⟩
  | cons r rest => exact .inl ⟨r, rest, rfl, by simp [State.randomByte, h], by simp [State.drawn, Env.drawn, h]⟩

/-! ### Fetch -/

theorem pcLegal_iff {pc : Word} :
    pcLegal pc = true ↔ pc.toNat % 2 = 0 ∧ 0x200 ≤ pc.toNat ∧ pc.toNat ≤ 0xFFE := by
  simp [pcLegal]

/-- A fetch either reads the word at `pc` or finds that `pc` references no instruction. -/
theorem State.fetch_cases (s : State) :
    (pcLegal s.pc = true ∧ s.fetch = some (s.mem.wordAt s.pc.toNat)) ∨ (pcLegal s.pc = false ∧ s.fetch = none) := by
  cases h : pcLegal s.pc <;> simp [State.fetch, h]

/-- A word stored by its two bytes is the word that stands there. -/
theorem Memory.wordAt_writeBytes (m : Memory) (a : Nat) (w : Word) :
    (m.writeBytes a [highByte w, lowByte w]).wordAt a = w := by
  rw [Memory.wordAt, Memory.read_writeBytes_at m a [highByte w, lowByte w] 1 (by simp)]
  have := Memory.read_writeBytes_at m a [highByte w, lowByte w] 0 (by simp)
  rw [Nat.add_zero] at this
  rw [this]
  exact wordOfBytes_bytes w

/-! ### Operands, flags, keys -/

@[simp] theorem zextAddr_toNat (nnn : Addr) : (zextAddr nnn).toNat = nnn.toNat := by
  have := nnn.isLt
  simp [zextAddr]; omega

@[simp] theorem zextByte_toNat (v : Byte) : (zextByte v).toNat = v.toNat := by
  have := v.isLt
  simp [zextByte]; omega

theorem flagByte_cases (f : Bool) : flagByte f = 0x00 ∨ flagByte f = 0x01 := by cases f <;> simp [flagByte]

theorem flagByte_lowBit (a : Byte) : (flagByte (lowBit a)).toNat = a.toNat % 2 := by
  rcases Nat.mod_two_eq_zero_or_one a.toNat with h | h <;>
    simp [flagByte, lowBit, BitVec.getLsbD, Nat.testBit_zero, h]

theorem flagByte_highBit (a : Byte) : (flagByte (highBit a)).toNat = a.toNat / 128 := by
  have := a.isLt
  have h : a.toNat / 128 = 0 ∨ a.toNat / 128 = 1 := by omega
  rcases h with h | h <;>
    simp [flagByte, highBit, BitVec.getLsbD, Nat.testBit, Nat.shiftRight_eq_div_pow, h]

/-- A register names a key, or is above 15. -/
theorem keyIndex_cases (v : Byte) :
    (∃ k : Fin 16, k.val = v.toNat ∧ keyIndex v = some k) ∨ (15 < v.toNat ∧ keyIndex v = none) := by
  by_cases h : v.toNat < 16
  · exact .inl ⟨⟨v.toNat, h⟩, rfl, by simp [keyIndex, h]⟩
  · exact .inr ⟨by omega, by simp [keyIndex, h]⟩

theorem State.firstKey_eq_none {s : State} : s.firstKey = none ↔ ∀ k, s.key k = false := by
  simp [State.firstKey, List.find?_eq_none]

/-- The key found is pressed, and no key below it is. -/
theorem State.firstKey_eq_some {s : State} {k : Fin 16} (h : s.firstKey = some k) :
    s.key k = true ∧ ∀ j : Fin 16, j.val < k.val → s.key j = false := by
  refine ⟨List.find?_some h, fun j hj => ?_⟩
  unfold State.firstKey at h
  rw [List.find?_eq_some_iff_getElem] at h
  obtain ⟨-, n, hn, e, hb⟩ := h
  simp only [List.getElem_finRange] at e hb
  have := hb j.val (by rw [← e] at hj; exact hj)
  simpa using this

end Sys2Proof.Machine
end

