-- ==== Sys2Proof/Laws/PerInstr.lean ====
section
/-! SUPPORT. Laws made per instruction. Family Encoding: the word of an instruction is of the row of the opcode map
that has the instruction's number (30_encoding.md R96). -/

namespace Sys2Proof.Laws.Encoding

/-- The row of the opcode map that an instruction's word is of. -/
def Statement (i : Instr) : Prop := ∃ row ∈ opcodeTable, row.id = i.kind ∧ row.accepts (encode i) = true

theorem append_and {n m : Nat} (a b : BitVec n) (c d : BitVec m) :
    (a ++ c) &&& (b ++ d) = (a &&& b) ++ (c &&& d) := by
  ext k hk
  simp only [BitVec.getElem_and, BitVec.getElem_append]
  split <;> simp

theorem accepts_NNN (op : BitVec 4) (nnn : Addr) (id : Nat) (p : Word)
    (h : ((op ++ (0 : Addr) : Word) == p) = true) : (OpcodeRow.mk id 0xF000 p).accepts (wordNNN op nnn) = true := by
  have : wordNNN op nnn &&& 0xF000#16 = (op ++ (0 : Addr) : Word) := by
    have h1 : (0xF000#16 : Word) = ((0xF#4) ++ (0 : Addr) : Word) := by decide
    rw [h1, wordNNN, append_and]
    congr 1
    · exact BitVec.and_allOnes
    · simp
  simpa [OpcodeRow.accepts, this] using h

theorem accepts_XSS (op : BitVec 4) (x : Reg) (kk : Byte) (id : Nat) (p : Word)
    (h : ((op ++ ((0 : BitVec 4) ++ kk : Addr) : Word) == p) = true) :
    (OpcodeRow.mk id 0xF0FF p).accepts (wordXKK op x kk) = true := by
  have : wordXKK op x kk &&& 0xF0FF#16 = (op ++ ((0 : BitVec 4) ++ kk : Addr) : Word) := by
    have h1 : (0xF0FF#16 : Word) = ((0xF#4) ++ ((0#4) ++ (0xFF#8) : Addr) : Word) := by decide
    rw [h1, wordXKK, append_and, append_and]
    congr 1
    · exact BitVec.and_allOnes
    · congr 1
      · simp
      · exact BitVec.and_allOnes
  simpa [OpcodeRow.accepts, this] using h

theorem accepts_XYS (op : BitVec 4) (x y : Reg) (n : Fin 16) (id : Nat) (p : Word)
    (h : ((op ++ ((0 : BitVec 4) ++ ((0 : BitVec 4) ++ BitVec.ofFin (w := 4) n : Byte) : Addr) : Word) == p) = true) :
    (OpcodeRow.mk id 0xF00F p).accepts (wordXYN op x y n) = true := by
  have : wordXYN op x y n &&& 0xF00F#16 =
      (op ++ ((0 : BitVec 4) ++ ((0 : BitVec 4) ++ BitVec.ofFin (w := 4) n : Byte) : Addr) : Word) := by
    have h1 : (0xF00F#16 : Word) = ((0xF#4) ++ ((0#4) ++ ((0#4) ++ (0xF#4) : Byte) : Addr) : Word) := by decide
    rw [h1, wordXYN, wordXKK, append_and, append_and, append_and]
    congr 1
    · exact BitVec.and_allOnes
    · congr 1
      · simp
      · congr 1
        · simp
        · exact BitVec.and_allOnes
  simpa [OpcodeRow.accepts, this] using h

theorem cls : Statement (.cls) :=
  ⟨⟨1, 0xFFFF, 0x00E0⟩, by decide, rfl, by decide⟩

theorem ret : Statement (.ret) :=
  ⟨⟨2, 0xFFFF, 0x00EE⟩, by decide, rfl, by decide⟩

theorem jp (nnn : Addr) : Statement (.jp nnn) :=
  ⟨⟨3, 0xF000, 0x1000⟩, by decide, rfl, accepts_NNN _ _ _ _ (by decide)⟩

theorem call (nnn : Addr) : Statement (.call nnn) :=
  ⟨⟨4, 0xF000, 0x2000⟩, by decide, rfl, accepts_NNN _ _ _ _ (by decide)⟩

theorem seImm (x : Reg) (kk : Byte) : Statement (.seImm x kk) :=
  ⟨⟨5, 0xF000, 0x3000⟩, by decide, rfl, accepts_NNN _ _ _ _ (by decide)⟩

theorem sneImm (x : Reg) (kk : Byte) : Statement (.sneImm x kk) :=
  ⟨⟨6, 0xF000, 0x4000⟩, by decide, rfl, accepts_NNN _ _ _ _ (by decide)⟩

theorem seReg (x y : Reg) : Statement (.seReg x y) :=
  ⟨⟨7, 0xF00F, 0x5000⟩, by decide, rfl, accepts_XYS _ _ _ _ _ _ (by decide)⟩

theorem ldImm (x : Reg) (kk : Byte) : Statement (.ldImm x kk) :=
  ⟨⟨8, 0xF000, 0x6000⟩, by decide, rfl, accepts_NNN _ _ _ _ (by decide)⟩

theorem addImm (x : Reg) (kk : Byte) : Statement (.addImm x kk) :=
  ⟨⟨9, 0xF000, 0x7000⟩, by decide, rfl, accepts_NNN _ _ _ _ (by decide)⟩

theorem ldReg (x y : Reg) : Statement (.ldReg x y) :=
  ⟨⟨10, 0xF00F, 0x8000⟩, by decide, rfl, accepts_XYS _ _ _ _ _ _ (by decide)⟩

theorem orReg (x y : Reg) : Statement (.orReg x y) :=
  ⟨⟨11, 0xF00F, 0x8001⟩, by decide, rfl, accepts_XYS _ _ _ _ _ _ (by decide)⟩

theorem andReg (x y : Reg) : Statement (.andReg x y) :=
  ⟨⟨12, 0xF00F, 0x8002⟩, by decide, rfl, accepts_XYS _ _ _ _ _ _ (by decide)⟩

theorem xorReg (x y : Reg) : Statement (.xorReg x y) :=
  ⟨⟨13, 0xF00F, 0x8003⟩, by decide, rfl, accepts_XYS _ _ _ _ _ _ (by decide)⟩

theorem addReg (x y : Reg) : Statement (.addReg x y) :=
  ⟨⟨14, 0xF00F, 0x8004⟩, by decide, rfl, accepts_XYS _ _ _ _ _ _ (by decide)⟩

theorem subReg (x y : Reg) : Statement (.subReg x y) :=
  ⟨⟨15, 0xF00F, 0x8005⟩, by decide, rfl, accepts_XYS _ _ _ _ _ _ (by decide)⟩

theorem shr (x y : Reg) : Statement (.shr x y) :=
  ⟨⟨16, 0xF00F, 0x8006⟩, by decide, rfl, accepts_XYS _ _ _ _ _ _ (by decide)⟩

theorem subnReg (x y : Reg) : Statement (.subnReg x y) :=
  ⟨⟨17, 0xF00F, 0x8007⟩, by decide, rfl, accepts_XYS _ _ _ _ _ _ (by decide)⟩

theorem shl (x y : Reg) : Statement (.shl x y) :=
  ⟨⟨18, 0xF00F, 0x800E⟩, by decide, rfl, accepts_XYS _ _ _ _ _ _ (by decide)⟩

theorem sneReg (x y : Reg) : Statement (.sneReg x y) :=
  ⟨⟨19, 0xF00F, 0x9000⟩, by decide, rfl, accepts_XYS _ _ _ _ _ _ (by decide)⟩

theorem ldI (nnn : Addr) : Statement (.ldI nnn) :=
  ⟨⟨20, 0xF000, 0xA000⟩, by decide, rfl, accepts_NNN _ _ _ _ (by decide)⟩

theorem jpV0 (nnn : Addr) : Statement (.jpV0 nnn) :=
  ⟨⟨21, 0xF000, 0xB000⟩, by decide, rfl, accepts_NNN _ _ _ _ (by decide)⟩

theorem rnd (x : Reg) (kk : Byte) : Statement (.rnd x kk) :=
  ⟨⟨22, 0xF000, 0xC000⟩, by decide, rfl, accepts_NNN _ _ _ _ (by decide)⟩

theorem drw (x y : Reg) (n : Fin 16) : Statement (.drw x y n) :=
  ⟨⟨23, 0xF000, 0xD000⟩, by decide, rfl, accepts_NNN _ _ _ _ (by decide)⟩

theorem skp (x : Reg) : Statement (.skp x) :=
  ⟨⟨24, 0xF0FF, 0xE09E⟩, by decide, rfl, accepts_XSS _ _ _ _ _ (by decide)⟩

theorem sknp (x : Reg) : Statement (.sknp x) :=
  ⟨⟨25, 0xF0FF, 0xE0A1⟩, by decide, rfl, accepts_XSS _ _ _ _ _ (by decide)⟩

theorem ldVxDT (x : Reg) : Statement (.ldVxDT x) :=
  ⟨⟨26, 0xF0FF, 0xF007⟩, by decide, rfl, accepts_XSS _ _ _ _ _ (by decide)⟩

theorem ldVxK (x : Reg) : Statement (.ldVxK x) :=
  ⟨⟨27, 0xF0FF, 0xF00A⟩, by decide, rfl, accepts_XSS _ _ _ _ _ (by decide)⟩

theorem ldDTVx (x : Reg) : Statement (.ldDTVx x) :=
  ⟨⟨28, 0xF0FF, 0xF015⟩, by decide, rfl, accepts_XSS _ _ _ _ _ (by decide)⟩

theorem ldSTVx (x : Reg) : Statement (.ldSTVx x) :=
  ⟨⟨29, 0xF0FF, 0xF018⟩, by decide, rfl, accepts_XSS _ _ _ _ _ (by decide)⟩

theorem addI (x : Reg) : Statement (.addI x) :=
  ⟨⟨30, 0xF0FF, 0xF01E⟩, by decide, rfl, accepts_XSS _ _ _ _ _ (by decide)⟩

theorem ldF (x : Reg) : Statement (.ldF x) :=
  ⟨⟨31, 0xF0FF, 0xF029⟩, by decide, rfl, accepts_XSS _ _ _ _ _ (by decide)⟩

theorem ldB (x : Reg) : Statement (.ldB x) :=
  ⟨⟨32, 0xF0FF, 0xF033⟩, by decide, rfl, accepts_XSS _ _ _ _ _ (by decide)⟩

theorem storeRegs (x : Reg) : Statement (.storeRegs x) :=
  ⟨⟨33, 0xF0FF, 0xF055⟩, by decide, rfl, accepts_XSS _ _ _ _ _ (by decide)⟩

theorem loadRegs (x : Reg) : Statement (.loadRegs x) :=
  ⟨⟨34, 0xF0FF, 0xF065⟩, by decide, rfl, accepts_XSS _ _ _ _ _ (by decide)⟩

end Sys2Proof.Laws.Encoding
end

