-- ==== Sys2Proof/Laws/Step.lean ====
section
/-! SUPPORT. What an instruction, a cycle and a step can do, each said once. -/

namespace Sys2Proof.Machine

/-- What an instruction can do: end in a fatal error that is its own, keep the status, the record and the memory, or
store bytes at `I` and advance. -/
theorem exec_cases (i : Instr) (s t : State) (h : exec i s = .next t) :
    (∃ c, c ≠ .none ∧ c ≠ .unknownInstruction ∧ c ≠ .fetchFault ∧ t = s.fatal c (encode i)) ∨
    (t.status = s.status ∧ t.err = s.err ∧ t.mem = s.mem) ∨
    (∃ bytes, rangeOk (s.ea 0) bytes.length = true ∧
      t = ({ s with mem := s.mem.writeBytes (s.ea 0) bytes } : State).advance ∧
      ((∃ x, i = .ldB x ∧ bytes.length = 3) ∨
        (∃ x : Reg, i = .storeRegs x ∧ bytes.length = x.val + 1))) := by
  cases i <;> simp only [exec] at h
  case ret =>
    unfold execRet at h
    rcases s.pop_cases with ⟨h1, h2⟩ | ⟨h1, h2⟩ <;> rw [h2] at h <;> cases h
    · exact .inr (.inl ⟨rfl, rfl, rfl⟩)
    · exact .inl ⟨_, by decide, by decide, by decide, rfl⟩
  case call nnn =>
    unfold execCall at h
    rcases s.push_cases s.pc with ⟨h1, h2⟩ | ⟨h1, h2⟩ <;> rw [h2] at h <;> cases h
    · exact .inr (.inl ⟨rfl, rfl, rfl⟩)
    · exact .inl ⟨_, by decide, by decide, by decide, rfl⟩
  case drw x y n =>
    unfold execDrw at h
    rcases s.memRead_cases (s.ea 0) n.val with ⟨h1, h2⟩ | ⟨h1, h2⟩ <;> rw [h2] at h <;> cases h
    · exact .inr (.inl ⟨rfl, rfl, rfl⟩)
    · exact .inl ⟨_, by decide, by decide, by decide, rfl⟩
  case loadRegs x =>
    unfold execLoadRegs at h
    rcases s.memRead_cases (s.ea 0) (x.val+1) with ⟨h1, h2⟩ | ⟨h1, h2⟩ <;> rw [h2] at h <;> cases h
    · exact .inr (.inl ⟨rfl, rfl, rfl⟩)
    · exact .inl ⟨_, by decide, by decide, by decide, rfl⟩
  case ldB x =>
    unfold execLdB at h
    rcases s.memWrite_cases (s.ea 0) (bcdDigits (s.getV x)) with ⟨h1, h2⟩ | ⟨h1, h2⟩ <;> rw [h2] at h <;> cases h
    · exact .inr (.inr ⟨_, h1, rfl, .inl ⟨x, rfl, rfl⟩⟩)
    · exact .inl ⟨_, by decide, by decide, by decide, rfl⟩
  case storeRegs x =>
    unfold execStoreRegs at h
    rcases s.memWrite_cases (s.ea 0) (s.regsUpTo x) with ⟨h1, h2⟩ | ⟨h1, h2⟩ <;> rw [h2] at h <;> cases h
    · exact .inr (.inr ⟨_, h1, rfl, .inr ⟨x, rfl, s.regsUpTo_length x⟩⟩)
    · exact .inl ⟨_, by decide, by decide, by decide, rfl⟩
  case skp x =>
    unfold execSkp at h
    split at h <;> cases h
    · exact .inr (.inl ⟨rfl, rfl, rfl⟩)
    · exact .inl ⟨_, by decide, by decide, by decide, rfl⟩
  case sknp x =>
    unfold execSknp at h
    split at h <;> cases h
    · exact .inr (.inl ⟨rfl, rfl, rfl⟩)
    · exact .inl ⟨_, by decide, by decide, by decide, rfl⟩
  case ldVxK x =>
    unfold execLdVxK at h
    split at h <;> cases h <;> exact .inr (.inl ⟨rfl, rfl, rfl⟩)
  all_goals (cases h; exact .inr (.inl ⟨rfl, rfl, rfl⟩))

/-- What a cycle can do. -/
theorem cycle_cases {s t : State} (h : cycle s = .next t) :
    (s.status ≠ .running ∧ t = s) ∨
    (s.status = .running ∧ s.env.haltReq = true ∧ t = { s with status := .stopped }) ∨
    (s.ready ∧ pcLegal s.pc = false ∧ t = s.fatal .fetchFault 0x0000) ∨
    (s.ready ∧ ∃ w e, s.fetch = some w ∧ decode w = .error e ∧ t = s.fatal .unknownInstruction w) ∨
    (s.ready ∧ ∃ w i, s.fetch = some w ∧ decode w = .ok i ∧ exec i s = .next t) := by
  unfold cycle at h
  split at h
  · rename_i hr
    cases h
    exact .inl ⟨hr, rfl⟩
  · rename_i hr
    have hr : s.status = .running := by simpa using hr
    split at h
    · rename_i hh
      cases h
      exact .inr (.inl ⟨hr, hh, rfl⟩)
    · rename_i hh
      have hs : s.ready := ⟨hr, by simpa using hh⟩
      rcases s.fetch_cases with ⟨hp, hf⟩ | ⟨hp, hf⟩ <;> rw [hf] at h
      · dsimp only at h
        split at h
        · rename_i e hd
          cases h
          exact .inr (.inr (.inr (.inl ⟨hs, _, e, hf, hd, rfl⟩)))
        · rename_i i hd
          exact .inr (.inr (.inr (.inr ⟨hs, _, i, hf, hd, h⟩)))
      · cases h
        exact .inr (.inr (.inl ⟨hs, hp, rfl⟩))

/-- When the engine's cycle is due, the step is that cycle. -/
theorem step_eq_cycle {s : State} {rest : List Event} (h : s.cycleDue rest) : step s = cycle (s.setAgenda rest) := by
  rcases h with ⟨h, rfl⟩ | h
  · have : s.setAgenda [] = s := by simp [State.setAgenda, ← h]
    simp [step, nextStep, h, this]
  · simp [step, nextStep, h, perform]

/-- What a step can do: a cycle of the engine, a step of the tick or the host that touches none of the memory, the
call stack, `pc`, the status and the record, or a reset. -/
theorem step_cases {s t : State} (h : step s = .next t) :
    (∃ l, s.cycleDue l ∧ cycle (s.setAgenda l) = .next t) ∨
    (t.mem = s.mem ∧ t.stack = s.stack ∧ t.sp = s.sp ∧ t.pc = s.pc ∧ t.status = s.status ∧ t.err = s.err) ∨
    (∃ image : Image, image.length ≤ 3584 ∧
      ∃ e, t = { State.reset with mem := Memory.writeBytes [] 0x200 image, env := e }) := by
  unfold step nextStep at h
  split at h
  · rename_i hh
    have : s.setAgenda [] = s := by simp [State.setAgenda, ← hh]
    exact .inl ⟨[], .inl ⟨hh, rfl⟩, by rw [this]; exact h⟩
  · rename_i e rest he
    cases e <;> simp only [perform] at h
    case cycle => exact .inl ⟨rest, .inr he, h⟩
    case tick => cases h; unfold tick; split <;> exact .inr (.inl ⟨rfl, rfl, rfl, rfl, rfl, rfl⟩)
    case redrawClear => cases h; unfold redrawClear; split <;> exact .inr (.inl ⟨rfl, rfl, rfl, rfl, rfl, rfl⟩)
    case reset image =>
      unfold resetWith at h
      split at h <;> cases h
      rename_i hw
      exact .inr (.inr ⟨image, by simpa [Image.wellFormed] using hw, _, rfl⟩)
    all_goals
      cases h
      exact .inr (.inl ⟨rfl, rfl, rfl, rfl, rfl, rfl⟩)

/-! ### The steps of a run -/

@[simp] theorem runSteps_zero (s : State) : runSteps 0 s = .next s := rfl

theorem runSteps_succ {n : Nat} {s t : State} (h : step s = .next t) : runSteps (n + 1) s = runSteps n t := by
  simp only [runSteps, h]

@[simp] theorem State.ticksIn_zero (s : State) : s.ticksIn 0 = 0 := rfl

theorem State.ticksIn_succ {n : Nat} {s t : State} (h : step s = .next t) :
    s.ticksIn (n + 1) = (if s.tickDue = true then 1 else 0) + t.ticksIn n := by
  simp only [State.ticksIn, h]

@[simp] theorem State.noDelayWriteIn_zero (s : State) : s.noDelayWriteIn 0 = true := rfl

theorem State.noDelayWriteIn_succ {n : Nat} {s t : State} (h : step s = .next t) :
    s.noDelayWriteIn (n + 1) = (!s.delayWriteDue && t.noDelayWriteIn n) := by
  simp only [State.noDelayWriteIn, h]

/-- A step that writes no delay is no reset, and no cycle of an `Fx15`. -/
theorem State.not_delayWriteDue {s : State} (h : s.delayWriteDue = false) :
    (∀ x, ¬ s.runsNext (.ldDTVx x)) ∧ ∀ image rest, s.env.agenda ≠ .reset image :: rest := by
  refine ⟨?_, fun image rest e => ?_⟩
  · rintro x ⟨⟨rest, ⟨e, -⟩ | e⟩, hc⟩ <;> simp [State.delayWriteDue, e, hc] at h
  · simp [State.delayWriteDue, e] at h

@[simp] theorem State.current_setAgenda (s : State) (l : List Event) : (s.setAgenda l).current = s.current := rfl

/-- The instruction that a cycle executes is the decoded word at `pc` of a machine that is ready. -/
theorem State.current_eq_some {s : State} {i : Instr} :
    s.current = some i ↔ s.ready ∧ ∃ w, s.fetch = some w ∧ decode w = .ok i := by
  unfold State.current State.ready
  by_cases h : s.status = .running ∧ s.env.haltReq = false
  · rw [if_pos h]
    cases hf : s.fetch with
    | none => simp
    | some w => cases hd : decode w <;> simp [h, hd]
  · simp [h]

/-- When the next step is the cycle of `i`, it is `exec i`. -/
theorem step_of_runsNext {s : State} {i : Instr} (h : s.runsNext i) :
    ∃ rest, s.cycleDue rest ∧ step s = exec i (s.setAgenda rest) := by
  obtain ⟨⟨rest, hd⟩, hc⟩ := h
  obtain ⟨⟨h1, h2⟩, w, hf, hw⟩ := State.current_eq_some.mp hc
  refine ⟨rest, hd, ?_⟩
  have hf' : (s.setAgenda rest).fetch = some w := hf
  rw [step_eq_cycle hd]
  simp [cycle, h1, h2, hf', hw]

/-! ### Frames of the register writes -/

theorem State.keepsVBut_writeResult (s : State) (x : Reg) (r : Byte) : s.keepsVBut (s.writeResult x r) [x] := by
  intro k hk
  simp only [List.mem_singleton] at hk
  rw [State.getV_writeResult, if_neg hk]

theorem State.keepsVBut_writeResultFlag (s : State) (x : Reg) (r : Byte) (f : Bool) :
    s.keepsVBut (s.writeResultFlag x r f) [x, Reg.vf] := by
  intro k hk
  simp only [List.mem_cons, List.not_mem_nil, or_false, not_or] at hk
  rw [State.getV_writeResultFlag, if_neg hk.2, if_neg hk.1]

/-- Taking a fatal error is what `faultedFrom` says. -/
theorem State.faultedFrom_fatal (s : State) (c : ErrCause) (w : Word) : s.faultedFrom (s.fatal c w) c c.cls w :=
  ⟨rfl, rfl, rfl, rfl, rfl⟩

end Sys2Proof.Machine
end

