-- ==== Sys2Proof/Tests/Slice0.lean ====
section
/-! SUPPORT. Tests: the words and the vectors of spec/95_test_vectors.md (named in each comment), the check of
WellFormed, and for every statement with hypotheses a state and operands that meet them. -/

namespace Sys2Proof.Tests

open Sys2Proof.Machine

/-! ### WellFormed: the one check -/

theorem test_image_3585_refused : Image.wellFormed (List.replicate 3585 0x00) = false := by
  rw [Image.wellFormed, List.length_replicate]; rfl

theorem test_image_3584_accepted : Image.wellFormed (List.replicate 3584 0x00) = true := by
  rw [Image.wellFormed, List.length_replicate]; rfl

theorem test_image_empty_accepted : Image.wellFormed [] = true := by decide

/-! ### Decoding: section 2.1 of the vectors, and a word of every other row from the patterns of R96 -/

theorem test_decode_fixed :
    decode 0x00E0 = .ok .cls ∧ decode 0x00EE = .ok .ret ∧ decode 0x0000 = .error (.unknown 0x0000) ∧
      decode 0x00E1 = .error (.unknown 0x00E1) ∧ decode 0x01E0 = .error (.unknown 0x01E0) ∧
      decode 0x0123 = .error (.unknown 0x0123) := by decide

theorem test_decode_nnn :
    decode 0x1ABC = .ok (.jp 0xABC) ∧ decode 0x2FFF = .ok (.call 0xFFF) ∧ decode 0xA300 = .ok (.ldI 0x300) ∧
      decode 0xBFFE = .ok (.jpV0 0xFFE) := by decide

theorem test_decode_xkk :
    decode 0x3A7F = .ok (.seImm 0xA 0x7F) ∧ decode 0x4100 = .ok (.sneImm 1 0x00) ∧
      decode 0x6A2B = .ok (.ldImm 0xA 0x2B) ∧ decode 0x7102 = .ok (.addImm 1 0x02) ∧
      decode 0xC30F = .ok (.rnd 3 0x0F) := by decide

theorem test_decode_alu :
    decode 0x8AB0 = .ok (.ldReg 0xA 0xB) ∧ decode 0x8AB1 = .ok (.orReg 0xA 0xB) ∧
      decode 0x8AB2 = .ok (.andReg 0xA 0xB) ∧ decode 0x8AB3 = .ok (.xorReg 0xA 0xB) ∧
      decode 0x8AB4 = .ok (.addReg 0xA 0xB) ∧ decode 0x8AB5 = .ok (.subReg 0xA 0xB) ∧
      decode 0x8AB6 = .ok (.shr 0xA 0xB) ∧ decode 0x8AB7 = .ok (.subnReg 0xA 0xB) ∧
      decode 0x8ABE = .ok (.shl 0xA 0xB) := by decide

theorem test_decode_alu_unknown :
    decode 0x8AB8 = .error (.unknown 0x8AB8) ∧ decode 0x8ABD = .error (.unknown 0x8ABD) ∧
      decode 0x8ABF = .error (.unknown 0x8ABF) := by decide

theorem test_decode_skip_registers :
    decode 0x5120 = .ok (.seReg 1 2) ∧ decode 0x5121 = .error (.unknown 0x5121) ∧
      decode 0x9120 = .ok (.sneReg 1 2) ∧ decode 0x912F = .error (.unknown 0x912F) := by decide

theorem test_decode_draw_and_keys :
    decode 0xD12F = .ok (.drw 1 2 0xF) ∧ decode 0xE19E = .ok (.skp 1) ∧ decode 0xE1A1 = .ok (.sknp 1) ∧
      decode 0xE19F = .error (.unknown 0xE19F) := by decide

theorem test_decode_misc :
    decode 0xF007 = .ok (.ldVxDT 0) ∧ decode 0xF30A = .ok (.ldVxK 3) ∧ decode 0xF415 = .ok (.ldDTVx 4) ∧
      decode 0xF418 = .ok (.ldSTVx 4) ∧ decode 0xF21E = .ok (.addI 2) ∧ decode 0xF429 = .ok (.ldF 4) ∧
      decode 0xF033 = .ok (.ldB 0) ∧ decode 0xF155 = .ok (.storeRegs 1) ∧ decode 0xFF65 = .ok (.loadRegs 0xF) := by
  decide

theorem test_decode_misc_unknown :
    decode 0xF075 = .error (.unknown 0xF075) ∧ decode 0xF000 = .error (.unknown 0xF000) ∧
      decode 0xFFFF = .error (.unknown 0xFFFF) := by decide

/-- The column `kind (id)` of section 2.1. -/
theorem test_kind_numbers :
    kindOf 0x0000 = 0 ∧ kindOf 0x0123 = 0 ∧ kindOf 0x8AB8 = 0 ∧ kindOf 0xFFFF = 0 ∧ kindOf 0x00E0 = 1 ∧
      kindOf 0x00EE = 2 ∧ kindOf 0x1ABC = 3 ∧ kindOf 0x8AB4 = 14 ∧ kindOf 0x8ABE = 18 ∧ kindOf 0xD12F = 23 ∧
      kindOf 0xF007 = 26 ∧ kindOf 0xFF65 = 34 := by decide

/-- The bytes of 0x8AB4 in memory order: 8A at the lower address (R68). -/
theorem test_decode_bytes :
    decodeBytes [0x8A, 0xB4, 0x01] = .ok (.addReg 0xA 0xB, [0x01]) ∧
      decodeBytes [0x8A] = .error (.truncated [0x8A]) := by decide

theorem test_decode_table_word :
    decodeTableWord 16 0xF265 = some (.loadRegs 2) ∧ decodeTableWord 16 0xF266 = none := by decide

/-! ### One step

`regs` sets registers in the state after reset; `after s w p` runs the word `w` at `pc` and asks `p` of the next
state. -/

/-- Registers set in the reset state. -/
def regs (vs : List (Reg × Byte)) : State := vs.foldl (fun s p => s.setV p.1 p.2) State.reset

/-- The answer of a step that must go on. -/
def holds (r : Result) (p : State → Bool) : Bool :=
  match r with
  | .next t => p t
  | _ => false

/-- One step that runs a word at `pc`. -/
def after (s : State) (w : Word) (p : State → Bool) : Bool := holds (step (s.withWord w)) p

/-- Whether a step recorded an error: cause and class by number, word, `err_pc`. -/
def faulted (t : State) (cause : BitVec 3) (cls : BitVec 2) (w pc : Word) : Bool :=
  decide (t.status = .faulted ∧ t.err.cause.code = cause ∧ t.err.cls.code = cls ∧ t.err.word = w ∧ t.err.pc = pc ∧
    t.pc = pc)

/-- Bytes in memory. -/
def withBytes (s : State) (a : Nat) (bytes : List Byte) : State := { s with mem := s.mem.writeBytes a bytes }

/-- Keys pressed. -/
def pressed (s : State) (ks : List (Fin 16)) : State :=
  { s with env := { s.env with keys := Vector.ofFn fun k => ks.contains k } }

-- 2.2
theorem test_fetch_big_endian :
    holds (step (withBytes State.reset 0x200 [0x6A, 0x2B])) (fun t => decide (t.getV 0xA = 0x2B ∧ t.pc = 0x0202)) =
      true := by decide

theorem test_fetch_fault_odd :
    holds (step { State.reset with pc := 0x0201 }) (fun t => faulted t 2 2 0x0000 0x0201) = true := by decide

theorem test_last_word_executes :
    after { State.reset with pc := 0x0FFE } 0x6001 (fun t => decide (t.getV 0 = 0x01 ∧ t.pc = 0x1000)) = true := by
  decide

-- P7
theorem test_empty_image : holds (step State.reset) (fun t => faulted t 1 2 0x0000 0x0200) = true := by decide

-- 2.3
theorem test_jp : after State.reset 0x1201 (fun t => decide (t.pc = 0x0201 ∧ t.status = .running)) = true := by decide

theorem test_call :
    after { State.reset with sp := 15 } 0x2300
      (fun t => decide (t.stack[15] = 0x0200 ∧ t.sp = 16 ∧ t.pc = 0x0300)) = true := by decide

theorem test_call_overflow :
    after { State.reset with sp := 16 } 0x2300 (fun t => faulted t 3 3 0x2300 0x0200 && decide (t.sp = 16)) = true := by
  decide

theorem test_ret :
    after { State.reset with pc := 0x020C, sp := 1, stack := State.reset.stack.set 0 0x0204 } 0x00EE
      (fun t => decide (t.sp = 0 ∧ t.pc = 0x0206 ∧ t.stack[0] = 0x0204)) = true := by decide

theorem test_ret_underflow : after State.reset 0x00EE (fun t => faulted t 4 3 0x00EE 0x0200) = true := by decide

theorem test_jp_v0 : after (regs [(0, 0xFF)]) 0xBFFF (fun t => decide (t.pc = 0x10FE)) = true := by decide

theorem test_se_imm :
    (after (regs [(1, 0x00)]) 0x3100 (fun t => decide (t.pc = 0x0204)) &&
      after (regs [(1, 0x01)]) 0x3100 (fun t => decide (t.pc = 0x0202))) = true := by decide

theorem test_sne_imm :
    (after (regs [(1, 0x00)]) 0x4100 (fun t => decide (t.pc = 0x0202)) &&
      after (regs [(1, 0x01)]) 0x4100 (fun t => decide (t.pc = 0x0204))) = true := by decide

theorem test_se_reg :
    (after (regs [(1, 0x7F), (2, 0x7F)]) 0x5120 (fun t => decide (t.pc = 0x0204)) &&
      after (regs [(1, 0x7F), (2, 0x80)]) 0x5120 (fun t => decide (t.pc = 0x0202))) = true := by decide

theorem test_sne_reg :
    (after (regs [(1, 0x7F), (2, 0x80)]) 0x9120 (fun t => decide (t.pc = 0x0204)) &&
      after (regs [(1, 0x7F)]) 0x9110 (fun t => decide (t.pc = 0x0202))) = true := by decide

-- 2.4
theorem test_ld_imm : after State.reset 0x6F55 (fun t => decide (t.getV 0xF = 0x55)) = true := by decide

theorem test_add_imm_wraps :
    after (regs [(1, 0xFF)]) 0x7102 (fun t => decide (t.getV 1 = 0x01 ∧ t.getV 0xF = 0x00)) = true := by decide

theorem test_ld_reg : after (regs [(2, 0x33)]) 0x8120 (fun t => decide (t.getV 1 = 0x33)) = true := by decide

theorem test_or :
    after (regs [(1, 0xF0), (2, 0x0F), (0xF, 0x01)]) 0x8121
      (fun t => decide (t.getV 1 = 0xFF ∧ t.getV 0xF = 0x01)) = true := by decide

theorem test_and : after (regs [(1, 0xF3), (2, 0x3F)]) 0x8122 (fun t => decide (t.getV 1 = 0x33)) = true := by decide

theorem test_xor : after (regs [(1, 0xFF), (2, 0x0F)]) 0x8123 (fun t => decide (t.getV 1 = 0xF0)) = true := by decide

theorem test_add_carry :
    after (regs [(1, 0xF0), (2, 0x20)]) 0x8124 (fun t => decide (t.getV 1 = 0x10 ∧ t.getV 0xF = 1)) = true := by
  decide

theorem test_add_flag_last :
    after (regs [(0xF, 0xF0), (2, 0x20)]) 0x8F24 (fun t => decide (t.getV 0xF = 0x01)) = true := by decide

theorem test_sub_borrow :
    after (regs [(1, 0x03), (2, 0x05)]) 0x8125 (fun t => decide (t.getV 1 = 0xFE ∧ t.getV 0xF = 0)) = true := by
  decide

theorem test_sub_equal :
    after (regs [(1, 0x80), (2, 0x80)]) 0x8125 (fun t => decide (t.getV 1 = 0x00 ∧ t.getV 0xF = 1)) = true := by
  decide

theorem test_shr :
    after (regs [(1, 0x05), (2, 0x80)]) 0x8126 (fun t => decide (t.getV 1 = 0x02 ∧ t.getV 0xF = 1 ∧ t.getV 2 = 0x80)) =
      true := by decide

theorem test_subn :
    after (regs [(1, 0x03), (2, 0x05)]) 0x8127 (fun t => decide (t.getV 1 = 0x02 ∧ t.getV 0xF = 1)) = true := by
  decide

theorem test_subn_borrow :
    after (regs [(1, 0xFF), (2, 0x00)]) 0x8127 (fun t => decide (t.getV 1 = 0x01 ∧ t.getV 0xF = 0)) = true := by
  decide

theorem test_shl :
    after (regs [(1, 0x81), (2, 0x40)]) 0x812E (fun t => decide (t.getV 1 = 0x02 ∧ t.getV 0xF = 1 ∧ t.getV 2 = 0x40)) =
      true := by decide

theorem test_rnd :
    after { State.reset with env := { State.reset.env with rand := [0xA7, 0x11] } } 0xC30F
      (fun t => decide (t.getV 3 = 0x07 ∧ t.env.rand = [0x11])) = true := by decide

-- 2.5
theorem test_ld_i : after State.reset 0xAFFF (fun t => decide (t.I = 0x0FFF)) = true := by decide

theorem test_add_i_wraps :
    after { regs [(2, 0xFF)] with I := 0xFFFF } 0xF21E (fun t => decide (t.I = 0x00FE ∧ t.getV 0xF = 0x00)) = true := by
  decide

theorem test_ld_f : after (regs [(4, 0xFF)]) 0xF429 (fun t => decide (t.I = 0x054B)) = true := by decide

theorem test_ld_f_digit : after (regs [(4, 0x0A)]) 0xF429 (fun t => decide (t.I = 0x0082)) = true := by decide

theorem test_ld_b :
    after { regs [(0, 156)] with I := 0x0300 } 0xF033
      (fun t => decide (t.mem.readBytes 0x300 3 = [1, 5, 6] ∧ t.I = 0x0300)) = true := by decide

theorem test_ld_b_range :
    after { regs [(0, 156)] with I := 0x0FFE } 0xF033
      (fun t => faulted t 5 3 0xF033 0x0200 && decide (t.mem.readBytes 0xFFE 2 = [0, 0])) = true := by decide

theorem test_store_regs :
    after { regs [(0, 0x12), (1, 0x08), (2, 0x99)] with I := 0x0208 } 0xF155
      (fun t => decide (t.mem.readBytes 0x207 4 = [0, 0x12, 0x08, 0] ∧ t.I = 0x0208)) = true := by decide

theorem test_store_into_glyphs :
    after { regs [(0, 0xEE)] with I := 0x0050 } 0xF055 (fun t => decide (t.mem.read 0x050 = 0xEE)) = true := by decide

theorem test_load_regs :
    after (withBytes { regs [(3, 0x77)] with I := 0x0300 } 0x300 [1, 5, 6]) 0xF265
      (fun t => decide (t.getV 0 = 1 ∧ t.getV 1 = 5 ∧ t.getV 2 = 6 ∧ t.getV 3 = 0x77 ∧ t.I = 0x0300)) = true := by
  decide

theorem test_load_regs_range :
    after { regs [(0, 0x11)] with I := 0x0FFF } 0xF165
      (fun t => faulted t 5 3 0xF165 0x0200 && decide (t.getV 0 = 0x11)) = true := by decide

-- 2.6
theorem test_cls :
    after { State.reset with fb := Framebuffer.clear.toggle 5 6 } 0x00E0
      (fun t => decide (t.fb = Framebuffer.clear ∧ t.redraw = true)) = true := by decide

theorem test_drw_wraps :
    after (withBytes { regs [(0, 63), (1, 0)] with I := 0x0300 } 0x300 [0xC0]) 0xD011
      (fun t => decide (t.fb = (Framebuffer.clear.toggle 63 0).toggle 0 0 ∧ t.getV 0xF = 0 ∧ t.redraw = true)) =
      true := by decide

theorem test_drw_collision :
    after (withBytes { State.reset with I := 0x0300, fb := Framebuffer.clear.toggle 0 0 } 0x300 [0xC0]) 0xD011
      (fun t => decide (t.fb = Framebuffer.clear.toggle 1 0 ∧ t.getV 0xF = 1)) = true := by decide

-- 2.7
theorem test_skp :
    (after (pressed (regs [(5, 7)]) [7]) 0xE59E (fun t => decide (t.pc = 0x0204)) &&
      after (pressed (regs [(5, 7)]) [8]) 0xE59E (fun t => decide (t.pc = 0x0202))) = true := by decide

theorem test_skp_index : after (regs [(5, 0x10)]) 0xE59E (fun t => faulted t 6 3 0xE59E 0x0200) = true := by decide

theorem test_sknp :
    (after (regs [(5, 7)]) 0xE5A1 (fun t => decide (t.pc = 0x0204)) &&
      after (pressed (regs [(5, 7)]) [7]) 0xE5A1 (fun t => decide (t.pc = 0x0202))) = true := by decide

theorem test_key_wait :
    (after State.reset 0xF30A (fun t => decide (t.pc = 0x0200 ∧ t.getV 3 = 0)) &&
      (State.reset.withWord 0xF30A).keyWait) = true := by decide

theorem test_key_taken :
    after (pressed State.reset [7, 9]) 0xF30A (fun t => decide (t.getV 3 = 0x07 ∧ t.pc = 0x0202)) = true := by decide

theorem test_ld_dt : after (regs [(4, 0x3C)]) 0xF415 (fun t => decide (t.DT = 0x3C ∧ t.ST = 0)) = true := by decide

theorem test_ld_st :
    after (regs [(4, 0x05)]) 0xF418 (fun t => decide (t.ST = 0x05 ∧ t.DT = 0 ∧ t.stNonzero = true)) = true := by decide

theorem test_ld_vx_dt :
    after { State.reset with DT := 0x3B } 0xF407 (fun t => decide (t.getV 4 = 0x3B ∧ t.DT = 0x3B)) = true := by decide

theorem test_tick :
    holds (step { State.reset with DT := 0x01, ST := 0x00, env := { State.reset.env with agenda := [.tick] } })
      (fun t => decide (t.DT = 0x00 ∧ t.ST = 0x00 ∧ t.pc = 0x0200 ∧ t.env.agenda = [])) = true := by decide

theorem test_halt_request :
    holds (step { State.reset with env := { State.reset.env with haltReq := true } })
      (fun t => decide (t.status = .stopped ∧ t.err = .zero ∧ t.pc = 0x0200)) = true := by decide

theorem test_reset_loads :
    holds (step { State.reset with
        status := .stopped, DT := 7, env := { State.reset.env with agenda := [.reset [0x12, 0x00]] } })
      (fun t => decide (t.status = .running ∧ t.DT = 0 ∧ t.fetch = some 0x1200)) = true := by decide

/-! ### Witnesses

For each statement with hypotheses, named `test_witness_<Statement>`: states and operands that meet all of them, for
each clause and at the boundaries of its range. `out` is the state an instruction leaves. -/

/-- The next state of an answer, or the state given. -/
def out (r : Result) (s : State) : State :=
  match r with
  | .next t => t
  | _ => s

/-- A state whose agenda is given. -/
def due (s : State) (agenda : List Event) : State := s.setAgenda agenda

/-- Whether an answer is a next state. -/
def goesOn (r : Result) : Bool :=
  match r with
  | .next _ => true
  | _ => false

theorem next_out {r : Result} (s : State) (h : goesOn r = true) : r = .next (out r s) := by
  cases r with
  | next t => rfl
  | fault f => cases h
  | refused r => cases h

/-- An image of a length. -/
@[irreducible] def imageOf (n : Nat) : Image := List.replicate n 0xFF

theorem imageOf_length (n : Nat) : (imageOf n).length = n := by
  unfold imageOf
  exact List.length_replicate

theorem test_witness_EncodeOfDecodeIsTheWord : decode 0x8AB4 = .ok (.addReg 0xA 0xB) := by decide

theorem test_witness_DecoderFollowsTheOpcodeMap :
    (∃ r ∈ opcodeTable, r.accepts 0x8AB4 = true) ∧ (∀ r ∈ opcodeTable, r.accepts 0x8AB8 = false) := by decide

theorem test_witness_StepRunsTheDecodedInstruction :
    let s := ({ State.reset with pc := 0x0FFE } : State).withWord 0x6A2B
    s.ready ∧ s.cycleDue [] ∧ (due s [.cycle, .tick]).cycleDue [.tick] ∧ pcLegal s.pc = true ∧
      decodeBytes [s.mem.read s.pc.toNat, s.mem.read (s.pc.toNat + 1)] = .ok (.ldImm 0xA 0x2B, []) :=
  ⟨⟨rfl, rfl⟩, .inl ⟨rfl, rfl⟩, .inr rfl, by decide, by decide⟩

theorem test_witness_FetchReadsHighByteFirst :
    (withBytes State.reset 0x200 [0x6A, 0x2B]).fetch = some 0x6A2B ∧
    (withBytes { State.reset with pc := 0x0FFE } 0xFFE [0x60, 0x01]).fetch = some 0x6001 ∧
    ({ State.reset with pc := 0x0201 } : State).fetch = none ∧
    ({ State.reset with pc := 0x01FE } : State).fetch = none ∧
    ({ State.reset with pc := 0x1000 } : State).fetch = none := by decide

theorem test_witness_IllegalPcFaultsAtFetch :
    let s : State := { State.reset with pc := 0x0201 }
    s.ready ∧ s.cycleDue [] ∧ s.pc.toNat % 2 = 1 ∧ (0x01FE : Word).toNat < 0x200 ∧ 0xFFE < (0x1000 : Word).toNat :=
  ⟨⟨rfl, rfl⟩, .inl ⟨rfl, rfl⟩, by decide⟩

theorem test_witness_UnknownInstructionIsFatal :
    State.reset.ready ∧ State.reset.cycleDue [] ∧ State.reset.fetch = some 0x0000 ∧
      decode 0x0000 = .error (.unknown 0x0000) :=
  ⟨⟨rfl, rfl⟩, .inl ⟨rfl, rfl⟩, by decide⟩

theorem test_witness_FaultRecordsTheFetchedWord :
    let s := State.reset.withWord 0x00EE
    s.ready ∧ s.cycleDue [] ∧ s.fetch = some 0x00EE ∧ step s = .next (out (step s) s) ∧
      (out (step s) s).status = .faulted :=
  ⟨⟨rfl, rfl⟩, .inl ⟨rfl, rfl⟩, by decide, next_out _ (by decide), by decide⟩

theorem test_witness_HaltRequestStopsTheEngine :
    let s : State := { State.reset with env := { State.reset.env with haltReq := true } }
    s.status = .running ∧ s.env.haltReq = true ∧ s.cycleDue [] :=
  ⟨rfl, rfl, .inl ⟨rfl, rfl⟩⟩

theorem test_witness_FrozenUnlessReset :
    let s : State := due { State.reset with status := .faulted } [.tick, .redrawClear]
    s.status ≠ .running ∧ ∀ image rest, s.env.agenda ≠ .reset image :: rest :=
  ⟨by decide, fun _ _ h => by simp [due, State.setAgenda] at h⟩

theorem test_witness_TickTakesOneOffEachTimer :
    let s := due { State.reset with DT := 1, ST := 0 } [.tick, .cycle]
    s.status = .running ∧ s.env.agenda = .tick :: [.cycle] := ⟨rfl, rfl⟩

/-- `Fx15` at 0x200 with `V4` = 3, a tick, a key change and the cycle of a jump at 0x202 to the `Fx07` at 0x206. -/
def delayRun : State :=
  due (withBytes (regs [(4, 3)]) 0x200 [0xF4, 0x15, 0x12, 0x06, 0x00, 0x00, 0xF4, 0x07])
    [.cycle, .tick, .setKeys (Vector.replicate 16 true), .cycle]

theorem test_witness_DelayTimerReadsBackLessTheTicks :
    let t := out (step delayRun) delayRun
    let u := out (runSteps 3 t) t
    delayRun.runsNext (.ldDTVx 4) ∧ step delayRun = .next t ∧ t.noDelayWriteIn 3 = true ∧
      runSteps 3 t = .next u ∧ t.ticksIn 3 = 1 ∧ u.runsNext (.ldVxDT 4) :=
  ⟨⟨⟨_, .inr rfl⟩, by decide⟩, next_out _ (by decide), by decide, next_out _ (by decide), by decide,
    ⟨⟨[], .inl ⟨by decide, rfl⟩⟩, by decide⟩⟩

theorem test_witness_DelayTimerReadsBackLessTheTicks_in_a_row :
    let s := due (regs [(4, 3)]) [.tick, .tick, .tick, .tick, .tick]
    s.status = .running ∧ s.env.agenda = List.replicate 5 .tick ++ [] := ⟨rfl, rfl⟩

theorem test_witness_RedrawIsClearedByTheHost :
    let s := due { State.reset with redraw := true } [.redrawClear]
    s.status = .running ∧ s.env.agenda = .redrawClear :: [] ∧
      (due State.reset [.setKeys (Vector.replicate 16 true)]).env.agenda = .setKeys (Vector.replicate 16 true) :: [] ∧
      (due State.reset [.offerRandom 0xA7, .cycle]).env.agenda = .offerRandom 0xA7 :: [.cycle] ∧
      (due State.reset [.setHalt true]).env.agenda = .setHalt true :: [] := ⟨rfl, rfl, rfl, rfl, rfl⟩

theorem test_witness_ResetIsDefinedUpTo3584Bytes :
    (imageOf 3584).length ≤ 3584 ∧ 3584 < (imageOf 3585).length :=
  ⟨by rw [imageOf_length], by rw [imageOf_length]; decide⟩

theorem test_witness_HostResetLoadsTheImage :
    (due { State.reset with status := .faulted } [.reset (imageOf 3584), .cycle]).env.agenda =
      .reset (imageOf 3584) :: [.cycle] ∧ (imageOf 3584).length ≤ 3584 ∧ ([] : Image).length ≤ 3584 :=
  ⟨rfl, by rw [imageOf_length], by decide⟩

theorem test_witness_OnlyAnOverlongImageIsALoadError :
    (due State.reset [.reset (imageOf 3585)]).env.agenda = .reset (imageOf 3585) :: [] ∧
      3584 < (imageOf 3585).length :=
  ⟨rfl, by rw [imageOf_length]; decide⟩

theorem test_witness_MemReadIsTheBytesOrAFault :
    (State.reset.memRead 0xFFF 1 = some [0x00]) ∧ State.reset.memRead 0xFFF 2 = none ∧
      State.reset.memRead 0x1000 0 = some [] := by decide

theorem test_witness_MemWriteIsReadBack :
    State.reset.memWrite 0xFFF [0x11] = some (withBytes State.reset 0xFFF [0x11]) ∧
      State.reset.memWrite 0xFFF [0x11, 0x22] = none := by decide

theorem test_witness_StepKeepsMemoryCanonical :
    let s := ({ regs [(0, 0x11)] with I := 0x0FFF } : State).withWord 0xF055
    s.mem.wf = true ∧ step s = .next (out (step s) s) ∧ (out (step s) s).mem ≠ s.mem :=
  ⟨by decide, next_out _ (by decide), by decide⟩

theorem test_witness_StepKeepsCallsAndPcInRange :
    let s := State.reset.withWord 0x2300
    s.flowOk ∧ step s = .next (out (step s) s) ∧ (out (step s) s).sp = 1 := by
  refine ⟨⟨fun k h => ?_, by decide⟩, next_out _ (by decide), by decide⟩
  simp [State.withWord, State.reset] at h

theorem test_witness_StepKeepsTheErrorRecord :
    (State.reset.withWord 0x00EE).recordOk ∧ (State.reset.fatal .fetchFault 0x0000).recordOk ∧
      step (State.reset.withWord 0x00EE) = .next (out (step (State.reset.withWord 0x00EE)) State.reset) :=
  ⟨⟨fun _ => rfl, fun h => by simp [State.withWord, State.reset] at h⟩,
    ⟨fun h => absurd rfl h, fun _ => ⟨by decide, rfl, rfl⟩⟩, next_out _ (by decide)⟩

theorem test_witness_OnlyTheStoresChangeMemory :
    let s : State := { regs [(0, 0x11)] with I := 0x0FFF }
    exec (.storeRegs 0) s = .next (out (exec (.storeRegs 0) s) s) ∧
      (out (exec (.storeRegs 0) s) s).mem.read 0xFFF ≠ s.mem.read 0xFFF :=
  ⟨next_out _ (by decide), by decide⟩

/-- Each of the seven kinds of state is changed by an instruction. -/
theorem test_witness_OnlyTheNamedInstructionsWriteEachRegister :
    let s := regs [(0, 5)]
    (out (exec (.ldF 0) s) s).I ≠ s.I ∧ (out (exec (.call 0x300) s) s).stack ≠ s.stack ∧
      (out (exec (.call 0x300) s) s).sp ≠ s.sp ∧ (out (exec (.ldDTVx 0) s) s).DT ≠ s.DT ∧
      (out (exec (.ldSTVx 0) s) s).ST ≠ s.ST ∧ (out (exec .cls s) s).redraw ≠ s.redraw ∧
      (out (exec (.rnd 0 0x00) s) s).env ≠ s.env := by decide

theorem test_witness_OnlyFlagsAndDestinationsWriteVF :
    let s := regs [(1, 0xFF)]
    ∀ i ∈ [Instr.addReg 1 1, Instr.ldImm 0xF 0x55, Instr.ldReg 0xF 1],
      goesOn (exec i s) = true ∧ (out (exec i s) s).getV Reg.vf ≠ s.getV Reg.vf := by decide

/-- An instruction that goes on, and one instruction for each of the four ways to fault. -/
theorem test_witness_InstructionFaultsArePrecise :
    State.reset.status = .running ∧ (out (exec (.jp 0x300) State.reset) State.reset).status = .running ∧
      (out (exec (.call 0x300) { State.reset with sp := 16 }) State.reset).err.cause = .stackOverflow ∧
      (out (exec .ret State.reset) State.reset).err.cause = .stackUnderflow ∧
      (out (exec (.drw 0 1 15) { State.reset with I := 0x0FF2 }) State.reset).err.cause = .memRangeFault ∧
      (out (exec (.skp 5) (regs [(5, 0x10)])) State.reset).err.cause = .keyIndexFault := by decide

theorem test_witness_EachInstructionAdvancesPcAsItsRuleSays :
    State.reset.status = .running ∧
      exec (.jpV0 0xFFF) State.reset = .next (out (exec (.jpV0 0xFFF) State.reset) State.reset) ∧
      exec .ret State.reset = .next (out (exec .ret State.reset) State.reset) :=
  ⟨rfl, next_out _ (by decide), next_out _ (by decide)⟩

theorem test_witness_PushAndPopAreBounded :
    (({ State.reset with sp := 15 } : State).push 0x0200).isSome = true ∧
      (({ State.reset with sp := 16 } : State).push 0x0200) = none ∧
      (({ State.reset with sp := 1 } : State).pop).isSome = true ∧ State.reset.pop = none := by decide

theorem test_witness_JumpSetsPcToTheAddress :
    (0x201 : Addr).toNat % 2 = 1 ∧ (0x1FE : Addr).toNat < 0x200 ∧ (0xFFF : Addr).toNat % 2 = 1 := by decide

theorem test_witness_SkipsOnARegister : (1 : Fin 16) ≠ 0 ∧ (15 : Fin 16) ≠ 0 := by decide

/-- The destination that is not VF, for `8xy4`, `8xy5`, `8xy6`, `8xy7`, `8xyE`. -/
theorem test_witness_AddWritesSumAndCarry : (0 : Reg) ≠ Reg.vf ∧ (14 : Reg) ≠ Reg.vf := by decide

theorem test_witness_RandomIsOneDrawUnderTheMask : (0x0F : Byte).getLsbD 4 = false := by decide

theorem test_witness_CallPushesItsOwnAddress :
    State.reset.sp.val < 16 ∧ ({ State.reset with sp := 15 } : State).sp.val < 16 ∧
      ({ State.reset with sp := 16 } : State).sp.val = 16 := by decide

theorem test_witness_ReturnLandsAfterTheCall :
    0 < ({ State.reset with sp := 1 } : State).sp.val ∧ 0 < ({ State.reset with sp := 16 } : State).sp.val ∧
      State.reset.sp.val = 0 := by decide

/-- Balanced work that holds a nested call and return, which overwrites the dead entry `stack[15]`. -/
theorem test_witness_CallAndReturnPairUp :
    let s : State := { State.reset with sp := 14 }
    let t := out (exec (.call 0x300) s) s
    let inner := out (exec (.call 0x320) t) t
    let t' := out (exec .ret inner) inner
    s.sp.val < 16 ∧ exec (.call 0x300) s = .next t ∧ t'.sp = t.sp ∧ t'.stack ≠ t.stack ∧
      ∀ k : Fin 16, k.val < t.sp.val → t'.stack[k] = t.stack[k] :=
  ⟨by decide, next_out _ (by decide), by decide, by decide, by decide⟩

theorem test_witness_BcdStoresThreeDigits :
    ({ State.reset with I := 0x0FFD } : State).ea 2 ≤ 0xFFF ∧ 0xFFF < ({ State.reset with I := 0x0FFE } : State).ea 2 := by
  decide

/-- The bounds of `Fx55` and `Fx65`, for `x` = 15. -/
theorem test_witness_BlockStoreWritesV0ToVx :
    ({ State.reset with I := 0x0FF0 } : State).ea 15 ≤ 0xFFF ∧
      0xFFF < ({ State.reset with I := 0x0FF1 } : State).ea 15 := by decide

theorem test_witness_BlockLoadReadsV0ToVx :
    ({ State.reset with I := 0x0FFF } : State).ea 0 ≤ 0xFFF ∧
      0xFFF < ({ State.reset with I := 0x0FFF } : State).ea 1 := by decide

theorem test_witness_BlockLoadUndoesBlockStore :
    let s : State := { regs [(0, 0x12), (1, 0x34)] with I := 0x0FFE }
    let t := out (exec (.storeRegs 1) s) s
    let t' : State := (t.setV 0 0xFF).setV 1 0xFF
    s.ea 1 ≤ 0xFFF ∧ exec (.storeRegs 1) s = .next t ∧ t'.mem = t.mem ∧ t'.I = t.I :=
  ⟨by decide, next_out _ (by decide), rfl, rfl⟩

theorem test_witness_StoredCodeIsFetched :
    let s : State := { regs [(0, 0x12), (1, 0x08)] with I := 0x0208, pc := 0x0206 }
    let t := out (exec (.storeRegs 1) s) s
    (0 : Reg).val + 1 < 16 ∧ s.ea 1 ≤ 0xFFF ∧ exec (.storeRegs 1) s = .next t ∧ t.pc.toNat = s.ea 0 ∧
      pcLegal t.pc = true :=
  ⟨by decide, by decide, next_out _ (by decide), by decide, by decide⟩

theorem test_witness_DrawXorsTheSprite :
    ((0 : Fin 16).val = 0 ∧ 0xFFF < ({ State.reset with I := 0x1001 } : State).ea 0 - 1) ∧
      ({ State.reset with I := 0x0FF1 } : State).ea 15 - 1 ≤ 0xFFF ∧
      0xFFF < ({ State.reset with I := 0x0FF2 } : State).ea 15 - 1 ∧
      0xFFF < ({ State.reset with I := 0x1000 } : State).ea 1 - 1 := by decide

theorem test_witness_DrawingTwiceRestoresTheFramebuffer :
    let s := withBytes { State.reset with I := 0x0300 } 0x300 [0x80]
    let t := out (exec (.drw 0 1 1) s) s
    s.ea 1 - 1 ≤ 0xFFF ∧ exec (.drw 0 1 1) s = .next t ∧ t.getV 0 = s.getV 0 ∧ t.getV 1 = s.getV 1 ∧ t.I = s.I ∧
      t.fb ≠ s.fb ∧ t.mem.read (s.ea 0) = s.mem.read (s.ea 0) :=
  ⟨by decide, next_out _ (by decide), by decide, by decide, by decide, by decide, by decide⟩

theorem test_witness_KeySkipsTestTheLevel :
    ((regs [(5, 15)]).getV 5).toNat = (15 : Fin 16).val ∧ 15 < ((regs [(5, 16)]).getV 5).toNat := by decide

theorem test_witness_KeyWaitTakesTheLowestPressedKey :
    (∀ k, State.reset.key k = false) ∧
      (let s := pressed State.reset [7, 9]
       s.key 7 = true ∧ ∀ j : Fin 16, j.val < 7 → s.key j = false) := by decide

theorem test_witness_RestingPointStays :
    let s := State.reset.withWord 0x1200
    s.atRest ∧ s.env.haltReq = false ∧ s.cycleDue [] :=
  ⟨⟨rfl, 0x200, by decide, by decide⟩, rfl, .inl ⟨rfl, rfl⟩⟩

end Sys2Proof.Tests
end

section
/-! PROOFS. The conditional skips on an immediate (41_flow.md R155, R156). -/

namespace Sys2Proof.Machine

/-! ### The words of `3xkk` and `4xkk` -/

theorem decode_word_seImm (x : Reg) (kk : Byte) : decode (wordXKK 0x3 x kk) = .ok (.seImm x kk) := by
  simp [decode]

theorem decode_word_sneImm (x : Reg) (kk : Byte) : decode (wordXKK 0x4 x kk) = .ok (.sneImm x kk) := by
  simp [decode]

/-! ### The meanings of `3xkk` and `4xkk` -/

theorem exec_seImm (x : Reg) (kk : Byte) (s : State) : exec (.seImm x kk) s = .next (s.skipIf (s.getV x == kk)) := rfl

theorem exec_sneImm (x : Reg) (kk : Byte) (s : State) : exec (.sneImm x kk) s = .next (s.skipIf (s.getV x != kk)) := rfl

/-! ### A skip -/

theorem State.changesOnlyPc_skipIf (s : State) (c : Bool) : s.changesOnlyPc (s.skipIf c) :=
  ⟨rfl, fun _ => rfl⟩

/-- An instruction that means a skip on a test of `p` moves `pc` by 4 or 2 as `p` says, and nothing else. -/
theorem exec_skip_spec {i : Instr} {s : State} {c : Bool} {p : Prop} [Decidable p]
    (hi : exec i s = .next (s.skipIf c)) (hc : c = true ↔ p) :
    ∃ t, exec i s = .next t ∧ t.pc = (if p then s.pc + 4 else s.pc + 2) ∧ s.changesOnlyPc t :=
  ⟨s.skipIf c, hi, by simp only [State.skipIf_pc, hc], s.changesOnlyPc_skipIf c⟩

/-- Settles O35: both words decode to skips, one on the test `V[x] == kk` and one on `V[x] != kk`. -/
theorem skipsOnAnImmediate : Obligations.SkipsOnAnImmediate := by
  intro x kk s
  refine ⟨⟨decode_word_seImm x kk, decode_word_sneImm x kk⟩, ?_, ?_⟩
  · exact exec_skip_spec (exec_seImm x kk s) beq_iff_eq
  · exact exec_skip_spec (exec_sneImm x kk s) bne_iff_ne

end Sys2Proof.Machine
end

section
/-! PROOFS. The immediate load and add (42_alu.md R170, R171). -/

namespace Sys2Proof.Machine

/-! ### The words of `6xkk` and `7xkk` -/

theorem decode_word_ldImm (x : Reg) (kk : Byte) : decode (wordXKK 0x6 x kk) = .ok (.ldImm x kk) := by
  simp [decode]

theorem decode_word_addImm (x : Reg) (kk : Byte) : decode (wordXKK 0x7 x kk) = .ok (.addImm x kk) := by
  simp [decode]

/-! ### The meanings of `6xkk` and `7xkk` -/

theorem exec_ldImm (x : Reg) (kk : Byte) (s : State) : exec (.ldImm x kk) s = .next (s.writeResult x kk) := rfl

theorem exec_addImm (x : Reg) (kk : Byte) (s : State) :
    exec (.addImm x kk) s = .next (s.writeResult x (s.getV x + kk)) := rfl

/-! ### A result written without a flag -/

theorem State.changesOnlyVPc_writeResult (s : State) (x : Reg) (r : Byte) : s.changesOnlyVPc (s.writeResult x r) :=
  ⟨rfl, fun _ => rfl⟩

/-- An instruction that means a write of `r` to `V[x]` without a flag leaves `r` there and every other register as it
was, VF included when `x` is not 0xF, moves `pc` by 2, and changes nothing else. -/
theorem exec_writeResult_spec {i : Instr} {s : State} {x : Reg} {r : Byte}
    (hi : exec i s = .next (s.writeResult x r)) :
    ∃ t, exec i s = .next t ∧ t.getV x = r ∧ s.keepsVBut t [x] ∧ t.pc = s.pc + 2 ∧ s.changesOnlyVPc t := by
  have hx : (s.writeResult x r).getV x = r := by rw [State.getV_writeResult, if_pos rfl]
  exact ⟨s.writeResult x r, hi, hx, s.keepsVBut_writeResult x r, s.writeResult_pc x r,
    s.changesOnlyVPc_writeResult x r⟩

/-- Settles O40: both instructions are a write to `V[x]` without a flag, one of `kk` and one of the sum, which a byte
holds modulo 256. -/
theorem immediateLoadAndAdd : Obligations.ImmediateLoadAndAdd := by
  intro x kk s
  refine ⟨⟨decode_word_ldImm x kk, decode_word_addImm x kk⟩, exec_writeResult_spec (exec_ldImm x kk s), ?_⟩
  obtain ⟨t, ht, hx, frame⟩ := exec_writeResult_spec (exec_addImm x kk s)
  have hsum : (t.getV x).toNat = ((s.getV x).toNat + kk.toNat) % 256 := by rw [hx, BitVec.toNat_add]
  exact ⟨t, ht, hsum, frame⟩

end Sys2Proof.Machine
end

section
/-! PROOFS. The load of the address register (43_index_memory.md R200). -/

namespace Sys2Proof.Machine

/-! ### The word and the meaning of `Annn` -/

theorem decode_word_ldI (nnn : Addr) : decode (wordNNN 0xA nnn) = .ok (.ldI nnn) := by
  simp [decode]

theorem exec_ldI (nnn : Addr) (s : State) : exec (.ldI nnn) s = .next (s.setI (zextAddr nnn)).advance := rfl

/-! ### `I` set, then an advance -/

theorem State.changesOnlyIPc_setI_advance (s : State) (v : Word) : s.changesOnlyIPc (s.setI v).advance :=
  ⟨rfl, fun _ => rfl⟩

/-- An instruction that means `I` set to `v` leaves `v` there, moves `pc` by 2, and changes nothing else. -/
theorem exec_setI_spec {i : Instr} {s : State} {v : Word} (hi : exec i s = .next (s.setI v).advance) :
    ∃ t, exec i s = .next t ∧ t.I = v ∧ t.pc = s.pc + 2 ∧ s.changesOnlyIPc t := by
  have hI : (s.setI v).advance.I = v := by rw [State.advance_I, State.setI_I]
  have hpc : (s.setI v).advance.pc = s.pc + 2 := by rw [State.advance_pc, State.setI_pc]
  exact ⟨(s.setI v).advance, hi, hI, hpc, s.changesOnlyIPc_setI_advance v⟩

/-- Settles O46: `Annn` means `I` set to the zero-extended `nnn`, and zero extension keeps the number, whatever
`nnn` is. -/
theorem loadAddressRegister : Obligations.LoadAddressRegister := by
  intro nnn s
  obtain ⟨t, ht, hI, frame⟩ := exec_setI_spec (exec_ldI nnn s)
  have hnnn : t.I.toNat = nnn.toNat := by rw [hI, zextAddr_toNat]
  exact ⟨decode_word_ldI nnn, t, ht, hnnn, frame⟩

end Sys2Proof.Machine
end

section
/-! PROOFS. The unknown instruction (60_exceptions.md R252). -/

namespace Sys2Proof.Machine

/-! ### The agenda is no part of the cycle's input -/

@[simp] theorem State.fetch_setAgenda (s : State) (l : List Event) : (s.setAgenda l).fetch = s.fetch := rfl

@[simp] theorem State.ready_setAgenda (s : State) (l : List Event) : (s.setAgenda l).ready ↔ s.ready := Iff.rfl

/-! ### A cycle whose word the decoder does not know -/

/-- When a machine that is ready fetches a word that does not decode, its cycle ends in `UnknownInstruction` with that
word, whatever the decoder reports. -/
theorem cycle_of_decode_error {s : State} {w : Word} {e : DecodeError} (hs : s.ready) (hf : s.fetch = some w)
    (hd : decode w = .error e) : cycle s = .next (s.fatal .unknownInstruction w) := by
  obtain ⟨hrun, hhalt⟩ := hs
  simp [cycle, hrun, hhalt, hf, hd]

/-- Settles O8: the due cycle starts from the same machine with the agenda shortened, fetches the same word, and ends
in the fatal error `UnknownInstruction`, of class decode. -/
theorem unknownInstructionIsFatal : Obligations.UnknownInstructionIsFatal := by
  intro s rest w hs hdue hf hd
  have hcycle : cycle (s.setAgenda rest) = .next ((s.setAgenda rest).fatal .unknownInstruction w) :=
    cycle_of_decode_error ((s.ready_setAgenda rest).mpr hs) ((s.fetch_setAgenda rest).trans hf) hd
  exact ⟨_, (step_eq_cycle hdue).trans hcycle, (s.setAgenda rest).faultedFrom_fatal .unknownInstruction w⟩

end Sys2Proof.Machine
end

section
/-! PROOFS. The decoder and the encoder agree, and both follow the opcode map (30_encoding.md sections 1 to 5). -/

namespace Sys2Proof

/-! ### The decoder on the encoder's words -/

/-- The decoder gives back the instruction that a word encodes. -/
@[simp] theorem decode_encode (i : Instr) : decode (encode i) = .ok i := by
  cases i with
  | cls | ret => decide
  | seReg | sneReg => simp [encode, decode, decodeSkipReg]
  | ldReg | orReg | andReg | xorReg | addReg | subReg | shr | subnReg | shl => simp [encode, decode, decodeAlu]
  | skp | sknp => simp [encode, decode, decodeKey]
  | ldVxDT | ldVxK | ldDTVx | ldSTVx | addI | ldF | ldB | storeRegs | loadRegs => simp [encode, decode, decodeMisc]
  | jp nnn => rw [encode, decode, opField_wordNNN, nnnField_wordNNN]; rfl
  | _ => simp [encode, decode]

/-- Settles O2: the two bytes of a word, put together, are the word, and the decoder gives back the instruction that a
word encodes. -/
theorem decodeOfEncodeIsTheInstruction : Obligations.DecodeOfEncodeIsTheInstruction := by
  intro i rest
  simp [encodeBytes, decodeBytes]

/-! ### A word from the fields that the decoder tests -/

theorem wordNNN_of_opField {w : Word} {op : Fin 16} (h : opField w = op) :
    wordNNN (BitVec.ofFin (w := 4) op) (nnnField w) = w := by
  rw [← h, wordNNN_fields]

theorem wordXKK_of_opField {w : Word} {op : Fin 16} (h : opField w = op) :
    wordXKK (BitVec.ofFin (w := 4) op) (xField w) (kkField w) = w := by
  rw [← h, wordXKK_fields]

theorem wordXKK_of_kkField {w : Word} {op : Fin 16} {kk : Byte} (h : opField w = op) (hk : kkField w = kk) :
    wordXKK (BitVec.ofFin (w := 4) op) (xField w) kk = w := by
  rw [← hk, wordXKK_of_opField h]

theorem wordXYN_of_nField {w : Word} {op n : Fin 16} (h : opField w = op) (hn : nField w = n) :
    wordXYN (BitVec.ofFin (w := 4) op) (xField w) (yField w) n = w := by
  rw [← h, ← hn, wordXYN_fields]

/-! ### The encoder on the decoder's instructions, family by family -/

theorem encode_of_decodeFixed {w : Word} {i : Instr} (h : decodeFixed w = .ok i) : encode i = w := by
  unfold decodeFixed at h
  split at h
  · rename_i hw; cases h; exact hw.symm
  · split at h
    · rename_i hw; cases h; exact hw.symm
    · cases h

theorem encode_of_decodeSkipReg {w : Word} {i j : Instr} (hj : nField w = 0 → encode j = w)
    (h : decodeSkipReg w j = .ok i) : encode i = w := by
  unfold decodeSkipReg at h
  split at h
  · rename_i hn; cases h; exact hj hn
  · cases h

theorem encode_of_decodeAlu {w : Word} {i : Instr} (ho : opField w = 0x8) (h : decodeAlu w = .ok i) :
    encode i = w := by
  unfold decodeAlu at h
  split at h <;> cases h
  all_goals
    rename_i hn
    exact wordXYN_of_nField ho hn

theorem encode_of_decodeKey {w : Word} {i : Instr} (ho : opField w = 0xE) (h : decodeKey w = .ok i) :
    encode i = w := by
  unfold decodeKey at h
  repeat' split at h
  all_goals cases h
  all_goals
    rename_i hk
    exact wordXKK_of_kkField ho hk

theorem encode_of_decodeMisc {w : Word} {i : Instr} (ho : opField w = 0xF) (h : decodeMisc w = .ok i) :
    encode i = w := by
  unfold decodeMisc at h
  repeat' split at h
  all_goals cases h
  all_goals
    rename_i hk
    exact wordXKK_of_kkField ho hk

/-- Settles O3: an arm of the decoder fixes the family nibble, and with it the sub-opcode, that the encoder writes, and
the operands are the word's other fields. -/
theorem encodeOfDecodeIsTheWord : Obligations.EncodeOfDecodeIsTheWord := by
  intro w i h
  unfold decode at h
  split at h
  -- family 0
  case h_1 ho => exact encode_of_decodeFixed h
  -- families 1, 2, A, B: format NNN
  case h_2 ho | h_3 ho | h_11 ho | h_12 ho => cases h; exact wordNNN_of_opField ho
  -- families 3, 4, 6, 7, C: format XKK
  case h_4 ho | h_5 ho | h_7 ho | h_8 ho | h_13 ho => cases h; exact wordXKK_of_opField ho
  -- families 5 and 9
  case h_6 ho | h_10 ho => exact encode_of_decodeSkipReg (wordXYN_of_nField ho) h
  -- family 8
  case h_9 ho => exact encode_of_decodeAlu ho h
  -- family D: format XYN
  case h_14 ho => cases h; exact wordXYN_of_nField ho rfl
  -- family E
  case h_15 ho => exact encode_of_decodeKey ho h
  -- family F, the nibble that the other arms leave
  case h_16 =>
    refine encode_of_decodeMisc ?_ h
    have hlt := (opField w).isLt
    simp only [Fin.ext_iff, imp_false, Fin.coe_ofNat_eq_mod] at *
    omega

/-! ### The decoder on the words of a row -/

/-- A word that an instruction encodes decodes to that instruction. -/
theorem decode_eq_ok_iff {w : Word} {i : Instr} : decode w = .ok i ↔ encode i = w :=
  ⟨encodeOfDecodeIsTheWord w i, fun h => h ▸ decode_encode i⟩

/-- A word that is no instruction is reported as itself. -/
theorem decode_error_eq {w : Word} {e : DecodeError} (h : decode w = .error e) : e = .unknown w := by
  unfold decode at h
  split at h
  -- the families that look at a sub-opcode report the word; the others report nothing
  case h_1 => unfold decodeFixed at h; (repeat' split at h) <;> cases h; rfl
  case h_6 | h_10 => unfold decodeSkipReg at h; split at h <;> cases h; rfl
  case h_9 => unfold decodeAlu at h; split at h <;> cases h; rfl
  case h_15 => unfold decodeKey at h; (repeat' split at h) <;> cases h; rfl
  case h_16 => unfold decodeMisc at h; (repeat' split at h) <;> cases h; rfl
  all_goals cases h

/-- The words of a row decode to instructions of the row's number. -/
def RowDecodes (w : Word) (r : OpcodeRow) : Prop :=
  r.accepts w = true → ∃ i, decode w = .ok i ∧ i.kind = r.id

theorem OpcodeRow.accepts_iff {r : OpcodeRow} {w : Word} : r.accepts w = true ↔ w &&& r.mask = r.pattern :=
  beq_iff_eq

theorem rowDecodes_fixed {w p : Word} (i : Instr) (hi : encode i = p) : RowDecodes w ⟨i.kind, 0xFFFF, p⟩ := by
  intro h
  have hw : w = p := (BitVec.and_allOnes (x := w)).symm.trans (OpcodeRow.accepts_iff.mp h)
  exact ⟨i, decode_eq_ok_iff.mpr (hi.trans hw.symm), rfl⟩

theorem rowDecodes_NNN {w p : Word} {id : Nat} (i : Addr → Instr)
    (hi : ∀ nnn, encode (i nnn) = wordNNN (BitVec.ofFin (w := 4) (opField p)) nnn) (hk : ∀ nnn, (i nnn).kind = id) :
    RowDecodes w ⟨id, 0xF000, p⟩ := by
  intro h
  have hm : w &&& 0xF000 = p := OpcodeRow.accepts_iff.mp h
  have ho : opField w = opField p := opField_of_mask hm (by decide)
  exact ⟨_, decode_eq_ok_iff.mpr ((hi _).trans (wordNNN_of_opField ho)), hk _⟩

theorem rowDecodes_XKK {w p : Word} {id : Nat} (i : Reg → Byte → Instr)
    (hi : ∀ x kk, encode (i x kk) = wordXKK (BitVec.ofFin (w := 4) (opField p)) x kk)
    (hk : ∀ x kk, (i x kk).kind = id) : RowDecodes w ⟨id, 0xF000, p⟩ := by
  intro h
  have hm : w &&& 0xF000 = p := OpcodeRow.accepts_iff.mp h
  have ho : opField w = opField p := opField_of_mask hm (by decide)
  exact ⟨_, decode_eq_ok_iff.mpr ((hi _ _).trans (wordXKK_of_opField ho)), hk _ _⟩

theorem rowDecodes_XYN {w p : Word} {id : Nat} (i : Reg → Reg → Fin 16 → Instr)
    (hi : ∀ x y n, encode (i x y n) = wordXYN (BitVec.ofFin (w := 4) (opField p)) x y n)
    (hk : ∀ x y n, (i x y n).kind = id) : RowDecodes w ⟨id, 0xF000, p⟩ := by
  intro h
  have hm : w &&& 0xF000 = p := OpcodeRow.accepts_iff.mp h
  have ho : opField w = opField p := opField_of_mask hm (by decide)
  exact ⟨_, decode_eq_ok_iff.mpr ((hi _ _ _).trans (wordXYN_of_nField ho rfl)), hk _ _ _⟩

theorem rowDecodes_XYS {w p : Word} {id : Nat} (i : Reg → Reg → Instr)
    (hi : ∀ x y, encode (i x y) = wordXYN (BitVec.ofFin (w := 4) (opField p)) x y (nField p))
    (hk : ∀ x y, (i x y).kind = id) : RowDecodes w ⟨id, 0xF00F, p⟩ := by
  intro h
  have hm : w &&& 0xF00F = p := OpcodeRow.accepts_iff.mp h
  have ho : opField w = opField p := opField_of_mask hm (by decide)
  have hn : nField w = nField p := nField_of_mask hm (by decide)
  exact ⟨_, decode_eq_ok_iff.mpr ((hi _ _).trans (wordXYN_of_nField ho hn)), hk _ _⟩

theorem rowDecodes_XSS {w p : Word} {id : Nat} (i : Reg → Instr)
    (hi : ∀ x, encode (i x) = wordXKK (BitVec.ofFin (w := 4) (opField p)) x (kkField p))
    (hk : ∀ x, (i x).kind = id) : RowDecodes w ⟨id, 0xF0FF, p⟩ := by
  intro h
  have hm : w &&& 0xF0FF = p := OpcodeRow.accepts_iff.mp h
  have ho : opField w = opField p := opField_of_mask hm (by decide)
  have hkk : kkField w = kkField p := kkField_of_mask hm (by decide)
  exact ⟨_, decode_eq_ok_iff.mpr ((hi _).trans (wordXKK_of_kkField ho hkk)), hk _⟩

theorem rowDecodes_low (w : Word) : ∀ r ∈ opcodeRowsLow, RowDecodes w r := by
  simp only [opcodeRowsLow, List.forall_mem_cons]
  exact ⟨rowDecodes_fixed .cls rfl, rowDecodes_fixed .ret rfl, rowDecodes_NNN .jp (fun _ => rfl) fun _ => rfl,
    rowDecodes_NNN .call (fun _ => rfl) fun _ => rfl, rowDecodes_XKK .seImm (fun _ _ => rfl) fun _ _ => rfl,
    rowDecodes_XKK .sneImm (fun _ _ => rfl) fun _ _ => rfl, rowDecodes_XYS .seReg (fun _ _ => rfl) fun _ _ => rfl,
    rowDecodes_XKK .ldImm (fun _ _ => rfl) fun _ _ => rfl, rowDecodes_XKK .addImm (fun _ _ => rfl) fun _ _ => rfl,
    List.forall_mem_nil _⟩

theorem rowDecodes_alu (w : Word) : ∀ r ∈ opcodeRowsAlu, RowDecodes w r := by
  simp only [opcodeRowsAlu, List.forall_mem_cons]
  exact ⟨rowDecodes_XYS .ldReg (fun _ _ => rfl) fun _ _ => rfl, rowDecodes_XYS .orReg (fun _ _ => rfl) fun _ _ => rfl,
    rowDecodes_XYS .andReg (fun _ _ => rfl) fun _ _ => rfl, rowDecodes_XYS .xorReg (fun _ _ => rfl) fun _ _ => rfl,
    rowDecodes_XYS .addReg (fun _ _ => rfl) fun _ _ => rfl, rowDecodes_XYS .subReg (fun _ _ => rfl) fun _ _ => rfl,
    rowDecodes_XYS .shr (fun _ _ => rfl) fun _ _ => rfl, rowDecodes_XYS .subnReg (fun _ _ => rfl) fun _ _ => rfl,
    rowDecodes_XYS .shl (fun _ _ => rfl) fun _ _ => rfl, rowDecodes_XYS .sneReg (fun _ _ => rfl) fun _ _ => rfl,
    List.forall_mem_nil _⟩

theorem rowDecodes_high (w : Word) : ∀ r ∈ opcodeRowsHigh, RowDecodes w r := by
  simp only [opcodeRowsHigh, List.forall_mem_cons]
  exact ⟨rowDecodes_NNN .ldI (fun _ => rfl) fun _ => rfl, rowDecodes_NNN .jpV0 (fun _ => rfl) fun _ => rfl,
    rowDecodes_XKK .rnd (fun _ _ => rfl) fun _ _ => rfl, rowDecodes_XYN .drw (fun _ _ _ => rfl) fun _ _ _ => rfl,
    rowDecodes_XSS .skp (fun _ => rfl) fun _ => rfl, rowDecodes_XSS .sknp (fun _ => rfl) fun _ => rfl,
    rowDecodes_XSS .ldVxDT (fun _ => rfl) fun _ => rfl, rowDecodes_XSS .ldVxK (fun _ => rfl) fun _ => rfl,
    rowDecodes_XSS .ldDTVx (fun _ => rfl) fun _ => rfl, rowDecodes_XSS .ldSTVx (fun _ => rfl) fun _ => rfl,
    rowDecodes_XSS .addI (fun _ => rfl) fun _ => rfl, rowDecodes_XSS .ldF (fun _ => rfl) fun _ => rfl,
    rowDecodes_XSS .ldB (fun _ => rfl) fun _ => rfl, rowDecodes_XSS .storeRegs (fun _ => rfl) fun _ => rfl,
    rowDecodes_XSS .loadRegs (fun _ => rfl) fun _ => rfl, List.forall_mem_nil _⟩

theorem rowDecodes_of_mem (w : Word) {r : OpcodeRow} (hr : r ∈ opcodeTable) : RowDecodes w r := by
  simp only [opcodeTable, List.mem_append] at hr
  rcases hr with (hr | hr) | hr
  · exact rowDecodes_low w r hr
  · exact rowDecodes_alu w r hr
  · exact rowDecodes_high w r hr

/-- An instruction's word is of a row of the opcode map, by the law of each instruction. -/
theorem row_of_encode (i : Instr) : Laws.Encoding.Statement i := by
  cases i
  case cls => exact Laws.Encoding.cls
  case ret => exact Laws.Encoding.ret
  case jp nnn => exact Laws.Encoding.jp nnn
  case call nnn => exact Laws.Encoding.call nnn
  case seImm x kk => exact Laws.Encoding.seImm x kk
  case sneImm x kk => exact Laws.Encoding.sneImm x kk
  case seReg x y => exact Laws.Encoding.seReg x y
  case ldImm x kk => exact Laws.Encoding.ldImm x kk
  case addImm x kk => exact Laws.Encoding.addImm x kk
  case ldReg x y => exact Laws.Encoding.ldReg x y
  case orReg x y => exact Laws.Encoding.orReg x y
  case andReg x y => exact Laws.Encoding.andReg x y
  case xorReg x y => exact Laws.Encoding.xorReg x y
  case addReg x y => exact Laws.Encoding.addReg x y
  case subReg x y => exact Laws.Encoding.subReg x y
  case shr x y => exact Laws.Encoding.shr x y
  case subnReg x y => exact Laws.Encoding.subnReg x y
  case shl x y => exact Laws.Encoding.shl x y
  case sneReg x y => exact Laws.Encoding.sneReg x y
  case ldI nnn => exact Laws.Encoding.ldI nnn
  case jpV0 nnn => exact Laws.Encoding.jpV0 nnn
  case rnd x kk => exact Laws.Encoding.rnd x kk
  case drw x y n => exact Laws.Encoding.drw x y n
  case skp x => exact Laws.Encoding.skp x
  case sknp x => exact Laws.Encoding.sknp x
  case ldVxDT x => exact Laws.Encoding.ldVxDT x
  case ldVxK x => exact Laws.Encoding.ldVxK x
  case ldDTVx x => exact Laws.Encoding.ldDTVx x
  case ldSTVx x => exact Laws.Encoding.ldSTVx x
  case addI x => exact Laws.Encoding.addI x
  case ldF x => exact Laws.Encoding.ldF x
  case ldB x => exact Laws.Encoding.ldB x
  case storeRegs x => exact Laws.Encoding.storeRegs x
  case loadRegs x => exact Laws.Encoding.loadRegs x

/-- A row of the opcode map is told by its number. -/
theorem opcodeTable_id_inj : ∀ r ∈ opcodeTable, ∀ r' ∈ opcodeTable, r.id = r'.id → r = r' := by decide

/-- Settles O4: the words of a row decode to the instruction of its number; a word that decodes is of a row, since it is
the word that the encoder gives; and rows that share a word share the number of its instruction. -/
theorem decoderFollowsTheOpcodeMap : Obligations.DecoderFollowsTheOpcodeMap := by
  refine ⟨fun w r hr h => rowDecodes_of_mem w hr h, fun w hno => ?_, fun w r hr r' hr' h h' => ?_⟩
  · cases hd : decode w with
    | error e => rw [decode_error_eq hd]
    | ok i =>
      obtain ⟨row, hrow, -, hacc⟩ := row_of_encode i
      rw [decode_eq_ok_iff.mp hd, hno row hrow] at hacc
      cases hacc
  · obtain ⟨i, hi, hk⟩ := rowDecodes_of_mem w hr h
    obtain ⟨j, hj, hk'⟩ := rowDecodes_of_mem w hr' h'
    have hij : i = j := by rw [hi] at hj; cases hj; rfl
    exact opcodeTable_id_inj r hr r' hr' (by rw [← hk, ← hk', hij])

/-- Settles O1: each of these words is fixed, and the decoder computes its instruction or finds none. -/
theorem decoderReadsTheSpecsWords : Obligations.DecoderReadsTheSpecsWords := by
  unfold Obligations.DecoderReadsTheSpecsWords
  decide

end Sys2Proof
end

section
/-! PROOFS. What an instruction does, as a relation with one rule for each way it can end, so that proofs about every
instruction go by the rules. `exec_eq_next_iff` ties the relation to `exec`. -/

namespace Sys2Proof.Machine

/-! ### The conditions of the data accesses, in the terms of the statements -/

theorem State.rangeOk_ea (s : State) (n : Nat) : rangeOk (s.ea 0) n = true ↔ n = 0 ∨ s.ea n - 1 ≤ 0xFFF := by
  simp [rangeOk, State.ea]

theorem State.rangeOk_ea_succ (s : State) (k : Nat) : rangeOk (s.ea 0) (k + 1) = true ↔ s.ea k ≤ 0xFFF := by
  rw [State.rangeOk_ea]; simp only [State.ea]; omega

theorem State.not_rangeOk_ea_succ (s : State) (k : Nat) : rangeOk (s.ea 0) (k + 1) = false ↔ 0xFFF < s.ea k := by
  rw [← Bool.not_eq_true, State.rangeOk_ea_succ, Nat.not_le]

@[simp] theorem bcdDigits_length (v : Byte) : (bcdDigits v).length = 3 := rfl

theorem keyIndex_eq_some {v : Byte} {k : Fin 16} (h : v.toNat = k.val) : keyIndex v = some k := by
  simp [keyIndex, h]

theorem keyIndex_eq_none {v : Byte} (h : 15 < v.toNat) : keyIndex v = none :=
  dif_neg (by omega)

/-- The first key is the pressed one below which none is pressed. -/
theorem State.firstKey_eq_of_lowest {s : State} {k : Fin 16} (h : s.key k = true)
    (hlow : ∀ j : Fin 16, j.val < k.val → s.key j = false) : s.firstKey = some k := by
  cases hf : s.firstKey with
  | none => rw [State.firstKey_eq_none.mp hf k] at h; cases h
  | some k' =>
    obtain ⟨hk', hlow'⟩ := State.firstKey_eq_some hf
    rcases Nat.lt_trichotomy k.val k'.val with hlt | he | hlt
    · rw [hlow' k hlt] at h; cases h
    · rw [Fin.ext he]
    · rw [hlow k' hlt] at hk'; cases hk'

/-! ### The rules -/

/-- What `Dxyn` draws: the sprite at `I` on the framebuffer (44_display.md R221). -/
def State.drawing (s : State) (x y : Reg) (n : Fin 16) : Drawing :=
  Drawing.rows ⟨s.fb, false⟩ (s.getV x).toNat (s.getV y).toNat (s.mem.readBytes (s.ea 0) n.val)

/-- When an instruction ends in a fatal error, and with which cause (60_exceptions.md R253). -/
inductive Faults (s : State) : Instr → ErrCause → Prop
  | ret (h : s.sp.val = 0) : Faults s .ret .stackUnderflow
  | call (nnn : Addr) (h : s.sp.val = 16) : Faults s (.call nnn) .stackOverflow
  | drw (x y : Reg) (n : Fin 16) (h0 : 0 < n.val) (h : 0xFFF < s.ea n.val - 1) : Faults s (.drw x y n) .memRangeFault
  | skp (x : Reg) (h : 15 < (s.getV x).toNat) : Faults s (.skp x) .keyIndexFault
  | sknp (x : Reg) (h : 15 < (s.getV x).toNat) : Faults s (.sknp x) .keyIndexFault
  | ldB (x : Reg) (h : 0xFFF < s.ea 2) : Faults s (.ldB x) .memRangeFault
  | storeRegs (x : Reg) (h : 0xFFF < s.ea x.val) : Faults s (.storeRegs x) .memRangeFault
  | loadRegs (x : Reg) (h : 0xFFF < s.ea x.val) : Faults s (.loadRegs x) .memRangeFault

/-- What an instruction makes of a state. -/
inductive Effect (s : State) : Instr → State → Prop
  | cls : Effect s .cls (s.setFb .clear).raiseRedraw.advance
  | ret (h : 0 < s.sp.val) : Effect s .ret
      (({ s with sp := ⟨s.sp.val - 1, by omega⟩ } : State).jumpTo (s.stack[s.sp.val - 1] + 2))
  | jp (nnn : Addr) : Effect s (.jp nnn) (s.jumpTo (zextAddr nnn))
  | call (nnn : Addr) (h : s.sp.val < 16) : Effect s (.call nnn)
      (({ s with stack := s.stack.set s.sp.val s.pc, sp := ⟨s.sp.val + 1, by omega⟩ } : State).jumpTo (zextAddr nnn))
  | seImm (x : Reg) (kk : Byte) : Effect s (.seImm x kk) (s.skipIf (s.getV x == kk))
  | sneImm (x : Reg) (kk : Byte) : Effect s (.sneImm x kk) (s.skipIf (s.getV x != kk))
  | seReg (x y : Reg) : Effect s (.seReg x y) (s.skipIf (s.getV x == s.getV y))
  | sneReg (x y : Reg) : Effect s (.sneReg x y) (s.skipIf (s.getV x != s.getV y))
  | ldImm (x : Reg) (kk : Byte) : Effect s (.ldImm x kk) (s.writeResult x kk)
  | addImm (x : Reg) (kk : Byte) : Effect s (.addImm x kk) (s.writeResult x (s.getV x + kk))
  | ldReg (x y : Reg) : Effect s (.ldReg x y) (s.writeResult x (s.getV y))
  | orReg (x y : Reg) : Effect s (.orReg x y) (s.writeResult x (s.getV x ||| s.getV y))
  | andReg (x y : Reg) : Effect s (.andReg x y) (s.writeResult x (s.getV x &&& s.getV y))
  | xorReg (x y : Reg) : Effect s (.xorReg x y) (s.writeResult x (s.getV x ^^^ s.getV y))
  | addReg (x y : Reg) : Effect s (.addReg x y)
      (s.writeResultFlag x (s.getV x + s.getV y) (carryOut (s.getV x) (s.getV y)))
  | subReg (x y : Reg) : Effect s (.subReg x y)
      (s.writeResultFlag x (s.getV x - s.getV y) (notBorrow (s.getV x) (s.getV y)))
  | shr (x y : Reg) : Effect s (.shr x y) (s.writeResultFlag x (s.getV x >>> 1) (lowBit (s.getV x)))
  | subnReg (x y : Reg) : Effect s (.subnReg x y)
      (s.writeResultFlag x (s.getV y - s.getV x) (notBorrow (s.getV y) (s.getV x)))
  | shl (x y : Reg) : Effect s (.shl x y) (s.writeResultFlag x (s.getV x <<< 1) (highBit (s.getV x)))
  | ldI (nnn : Addr) : Effect s (.ldI nnn) (s.setI (zextAddr nnn)).advance
  | jpV0 (nnn : Addr) : Effect s (.jpV0 nnn) (s.jumpTo (zextAddr nnn + zextByte (s.getV 0)))
  | rnd (x : Reg) (kk : Byte) : Effect s (.rnd x kk) (s.drawn.writeResult x (s.randomByte &&& kk))
  | drw (x y : Reg) (n : Fin 16) (h : n.val = 0 ∨ s.ea n.val - 1 ≤ 0xFFF) : Effect s (.drw x y n)
      (((s.setFb (s.drawing x y n).fb).setVF (s.drawing x y n).hit).raiseRedraw.advance)
  | skp (x : Reg) (k : Fin 16) (h : (s.getV x).toNat = k.val) : Effect s (.skp x) (s.skipIf (s.key k))
  | sknp (x : Reg) (k : Fin 16) (h : (s.getV x).toNat = k.val) : Effect s (.sknp x) (s.skipIf (!s.key k))
  | ldVxDT (x : Reg) : Effect s (.ldVxDT x) (s.writeResult x s.DT)
  | keyWait (x : Reg) (h : ∀ k, s.key k = false) : Effect s (.ldVxK x) s
  | ldVxK (x : Reg) (k : Fin 16) (h : s.key k = true) (hlow : ∀ j : Fin 16, j.val < k.val → s.key j = false) :
      Effect s (.ldVxK x) (s.writeResult x (keyByte k))
  | ldDTVx (x : Reg) : Effect s (.ldDTVx x) ({ s with DT := s.getV x } : State).advance
  | ldSTVx (x : Reg) : Effect s (.ldSTVx x) ({ s with ST := s.getV x } : State).advance
  | addI (x : Reg) : Effect s (.addI x) (s.setI (s.I + zextByte (s.getV x))).advance
  | ldF (x : Reg) : Effect s (.ldF x) (s.setI (glyphAddr (s.getV x))).advance
  | ldB (x : Reg) (h : s.ea 2 ≤ 0xFFF) : Effect s (.ldB x)
      ({ s with mem := s.mem.writeBytes (s.ea 0) (bcdDigits (s.getV x)) } : State).advance
  | storeRegs (x : Reg) (h : s.ea x.val ≤ 0xFFF) : Effect s (.storeRegs x)
      ({ s with mem := s.mem.writeBytes (s.ea 0) (s.regsUpTo x) } : State).advance
  | loadRegs (x : Reg) (h : s.ea x.val ≤ 0xFFF) : Effect s (.loadRegs x)
      (s.loadV (s.mem.readBytes (s.ea 0) (x.val + 1))).advance
  | fatal {i : Instr} {c : ErrCause} (h : Faults s i c) : Effect s i (s.fatal c (encode i))

/-! ### The rules are what `exec` does -/

theorem Faults.exec_eq {s : State} {i : Instr} {c : ErrCause} (h : Faults s i c) :
    exec i s = .next (s.fatal c (encode i)) := by
  cases h with
  | ret h => simp [exec, execRet, State.pop, h, raiseIn]
  | call nnn h => simp [exec, execCall, State.push, h, raiseIn]
  | drw x y n h0 h =>
    have hr : rangeOk (s.ea 0) n.val = false := by
      rw [← Bool.not_eq_true, State.rangeOk_ea]; omega
    simp [exec, execDrw, State.memRead, hr, raiseIn]
  | skp x h | sknp x h => simp [exec, execSkp, execSknp, keyIndex_eq_none h, raiseIn]
  | ldB x h => simp [exec, execLdB, State.memWrite, (s.not_rangeOk_ea_succ 2).mpr h, raiseIn]
  | storeRegs x h =>
    simp [exec, execStoreRegs, State.memWrite, s.regsUpTo_length, (s.not_rangeOk_ea_succ x.val).mpr h, raiseIn]
  | loadRegs x h => simp [exec, execLoadRegs, State.memRead, (s.not_rangeOk_ea_succ x.val).mpr h, raiseIn]

theorem Effect.exec_eq {s t : State} {i : Instr} (h : Effect s i t) : exec i s = .next t := by
  cases h with
  | fatal h => exact h.exec_eq
  | ret h => simp [exec, execRet, State.pop, h]
  | call nnn h => simp [exec, execCall, State.push, h]
  | drw x y n h => simp [exec, execDrw, State.memRead, (s.rangeOk_ea n.val).mpr h, State.drawing]
  | skp x k h => simp [exec, execSkp, keyIndex_eq_some h]
  | sknp x k h => simp [exec, execSknp, keyIndex_eq_some h]
  | keyWait x h => simp [exec, execLdVxK, State.firstKey_eq_none.mpr h]
  | ldVxK x k h hlow => simp [exec, execLdVxK, State.firstKey_eq_of_lowest h hlow]
  | ldB x h => simp [exec, execLdB, State.memWrite, (s.rangeOk_ea_succ 2).mpr h]
  | storeRegs x h =>
    simp [exec, execStoreRegs, State.memWrite, s.regsUpTo_length, (s.rangeOk_ea_succ x.val).mpr h]
  | loadRegs x h => simp [exec, execLoadRegs, State.memRead, (s.rangeOk_ea_succ x.val).mpr h]
  | _ => rfl

/-- An instruction that faults on a condition has a rule whether or not the condition holds. -/
theorem exists_effect_of_fault {s : State} {i : Instr} {c : ErrCause} {p : Prop} (hf : p → Faults s i c)
    (hn : ¬p → ∃ t, Effect s i t) : ∃ t, Effect s i t := by
  by_cases h : p
  · exact ⟨_, .fatal (hf h)⟩
  · exact hn h

/-- In every state a rule applies to every instruction. -/
theorem exists_effect (i : Instr) (s : State) : ∃ t, Effect s i t := by
  cases i with
  | ret => exact exists_effect_of_fault .ret fun h => ⟨_, .ret (Nat.pos_of_ne_zero h)⟩
  | call nnn => exact exists_effect_of_fault (.call nnn) fun h => ⟨_, .call nnn (by have := s.sp.isLt; omega)⟩
  | drw x y n =>
    exact exists_effect_of_fault (p := 0 < n.val ∧ 0xFFF < s.ea n.val - 1) (fun h => .drw x y n h.1 h.2) fun h =>
      ⟨_, .drw x y n (by omega)⟩
  | skp x => exact exists_effect_of_fault (.skp x) fun h => ⟨_, .skp x ⟨(s.getV x).toNat, by omega⟩ rfl⟩
  | sknp x => exact exists_effect_of_fault (.sknp x) fun h => ⟨_, .sknp x ⟨(s.getV x).toNat, by omega⟩ rfl⟩
  | ldB x => exact exists_effect_of_fault (.ldB x) fun h => ⟨_, .ldB x (Nat.not_lt.mp h)⟩
  | storeRegs x => exact exists_effect_of_fault (.storeRegs x) fun h => ⟨_, .storeRegs x (Nat.not_lt.mp h)⟩
  | loadRegs x => exact exists_effect_of_fault (.loadRegs x) fun h => ⟨_, .loadRegs x (Nat.not_lt.mp h)⟩
  | ldVxK x =>
    cases hf : s.firstKey with
    | none => exact ⟨s, .keyWait x (State.firstKey_eq_none.mp hf)⟩
    | some k => exact ⟨_, .ldVxK x k (State.firstKey_eq_some hf).1 (State.firstKey_eq_some hf).2⟩
  | _ => exact ⟨_, by constructor⟩

/-- The rules say exactly what `exec` does. -/
theorem exec_eq_next_iff {i : Instr} {s t : State} : exec i s = .next t ↔ Effect s i t := by
  refine ⟨fun h => ?_, Effect.exec_eq⟩
  obtain ⟨u, hu⟩ := exists_effect i s
  have htu : u = t := by simpa [hu.exec_eq] using h
  exact htu ▸ hu

end Sys2Proof.Machine
end

section
/-! PROOFS. The engine's cycle, the fetch, and the end of a run (40_fetch_cycle.md, 20_memory.md R68,
60_exceptions.md, 70_reset_and_hazards.md R293). -/

namespace Sys2Proof.Machine

/-! ### The bytes of a word and the legal addresses -/

theorem wordOfBytes_toNat (hi lo : Byte) : (wordOfBytes hi lo).toNat = 256 * hi.toNat + lo.toNat := by
  rw [wordOfBytes, BitVec.toNat_append, ← Nat.shiftLeft_add_eq_or_of_lt lo.isLt, Nat.shiftLeft_eq]
  omega

theorem pcLegal_eq_false_iff {pc : Word} :
    pcLegal pc = false ↔ pc.toNat % 2 = 1 ∨ pc.toNat < 0x200 ∨ 0xFFE < pc.toNat := by
  rw [← Bool.not_eq_true, pcLegal_iff]; omega

theorem State.fetch_eq_none_iff {s : State} : s.fetch = none ↔ pcLegal s.pc = false := by
  rcases s.fetch_cases with ⟨hp, hf⟩ | ⟨hp, hf⟩ <;> simp [hp, hf]

theorem State.fetch_eq_some {s : State} {w : Word} (h : s.fetch = some w) :
    pcLegal s.pc = true ∧ w = s.mem.wordAt s.pc.toNat := by
  rcases s.fetch_cases with ⟨hp, hf⟩ | ⟨hp, hf⟩ <;> rw [hf] at h <;> cases h
  exact ⟨hp, rfl⟩

theorem State.fetch_of_legal {s : State} (h : pcLegal s.pc = true) : s.fetch = some (s.mem.wordAt s.pc.toNat) :=
  if_pos h

/-- Settles O6: a fetched word is the word at `pc`, whose first byte is its high half, and a fetch fails exactly where
the check of `pc` does. -/
theorem fetchReadsHighByteFirst : Obligations.FetchReadsHighByteFirst := by
  refine ⟨fun s w h => ?_, fun s => State.fetch_eq_none_iff.trans pcLegal_eq_false_iff⟩
  obtain ⟨-, rfl⟩ := State.fetch_eq_some h
  exact wordOfBytes_toNat _ _

/-! ### The outcomes of a cycle -/

theorem cycle_of_not_running {s : State} (h : s.status ≠ .running) : cycle s = .next s :=
  if_pos h

theorem cycle_of_haltReq {s : State} (h : s.status = .running) (hh : s.env.haltReq = true) :
    cycle s = .next { s with status := .stopped } := by
  simp [cycle, h, hh]

theorem cycle_of_fetch_none {s : State} (hs : s.ready) (hf : s.fetch = none) :
    cycle s = .next (s.fatal .fetchFault 0x0000) := by
  obtain ⟨hrun, hhalt⟩ := hs
  simp [cycle, hrun, hhalt, hf]

theorem cycle_of_decode_ok {s : State} {w : Word} {i : Instr} (hs : s.ready) (hf : s.fetch = some w)
    (hd : decode w = .ok i) : cycle s = exec i s := by
  obtain ⟨hrun, hhalt⟩ := hs
  simp [cycle, hrun, hhalt, hf, hd]

theorem decode_of_decodeBytes {hi lo : Byte} {i : Instr} (h : decodeBytes [hi, lo] = .ok (i, [])) :
    decode (wordOfBytes hi lo) = .ok i := by
  cases hd : decode (wordOfBytes hi lo) <;> simp_all [decodeBytes]

/-- Settles O5: the fetch reads the two bytes at `pc` as one word, the decoder gives `i`, and the cycle is `exec i`. -/
theorem stepRunsTheDecodedInstruction : Obligations.StepRunsTheDecodedInstruction := by
  intro s rest i hs hdue hpc hbytes
  have hfetch : (s.setAgenda rest).fetch = some (s.mem.wordAt s.pc.toNat) := State.fetch_of_legal hpc
  exact (step_eq_cycle hdue).trans (cycle_of_decode_ok hs hfetch (decode_of_decodeBytes hbytes))

/-- Settles O7: the check of `pc` fails, so the cycle ends in `FetchFault` with word zero. -/
theorem illegalPcFaultsAtFetch : Obligations.IllegalPcFaultsAtFetch := by
  intro s rest hs hdue hpc
  have hfetch : (s.setAgenda rest).fetch = none := State.fetch_eq_none_iff.mpr (pcLegal_eq_false_iff.mpr hpc)
  exact ⟨_, (step_eq_cycle hdue).trans (cycle_of_fetch_none hs hfetch),
    (s.setAgenda rest).faultedFrom_fatal .fetchFault 0x0000⟩

/-- Settles O9: in a ready machine that has fetched a word, a cycle that ends faulted is an unknown word's, or an
instruction's own fault, whose word is the encoding of the instruction, which is the fetched word. -/
theorem faultRecordsTheFetchedWord : Obligations.FaultRecordsTheFetchedWord := by
  intro s t rest w ⟨hrun, hhalt⟩ hdue hf hstep hfaulted
  rw [step_eq_cycle hdue] at hstep
  rcases cycle_cases hstep with ⟨hn, -⟩ | ⟨-, hh, -⟩ | ⟨-, hp, -⟩ | ⟨-, w', e, hf', -, rfl⟩ | ⟨-, w', i, hf', hd, he⟩
  · exact absurd hrun hn
  · exact absurd (hhalt.symm.trans hh) (by decide)
  · exact absurd (State.fetch_eq_none_iff.mpr hp) (by simp [hf])
  · obtain rfl : w = w' := by simpa [hf] using hf'
    exact ⟨_, _, State.faultedFrom_fatal _ _ _⟩
  · obtain rfl : w = w' := by simpa [hf] using hf'
    have hkept : t.status ≠ s.status := by rw [hfaulted, hrun]; decide
    rcases exec_cases i _ t he with ⟨c, -, -, -, rfl⟩ | ⟨hst, -, -⟩ | ⟨bytes, -, rfl, -⟩
    · rw [decode_eq_ok_iff.mp hd]
      exact ⟨_, _, State.faultedFrom_fatal _ _ _⟩
    · exact absurd hst hkept
    · exact absurd rfl hkept

/-- Settles O10: the halt request is looked at before the fetch. -/
theorem haltRequestStopsTheEngine : Obligations.HaltRequestStopsTheEngine := by
  intro s rest hrun hh hdue
  exact (step_eq_cycle hdue).trans (cycle_of_haltReq hrun hh)

/-! ### The key wait and the resting point -/

theorem State.keyWait_eq_true {s : State} :
    s.keyWait = true ↔ (∃ x, s.current = some (.ldVxK x)) ∧ s.firstKey = none := by
  unfold State.keyWait
  split
  · rename_i x hc; simp [hc]
  · rename_i hc; simpa using fun x hx => absurd hx (hc x)

/-- Settles O58: the port is 1 when the cycle's instruction is an `Fx0A` that finds no key, and a word decodes to `Fx0A`
exactly when it is its encoding. -/
theorem keyWaitIsSignalledWhileWaiting : Obligations.KeyWaitIsSignalledWhileWaiting := by
  intro s
  rw [State.keyWait_eq_true, State.firstKey_eq_none]
  have hcurrent : (∃ x, s.current = some (.ldVxK x)) ↔ s.ready ∧ ∃ x, s.fetch = some (encode (.ldVxK x)) := by
    simp only [State.current_eq_some, decode_eq_ok_iff]
    constructor
    · rintro ⟨x, hs, w, hf, rfl⟩; exact ⟨hs, x, hf⟩
    · rintro ⟨hs, x, hf⟩; exact ⟨x, hs, _, hf, rfl⟩
  rw [hcurrent, and_assoc]

/-- Settles O60: the jump at `pc` goes to `pc`, so the state after it is the state before it. -/
theorem restingPointStays : Obligations.RestingPointStays := by
  intro s rest ⟨hrun, nnn, hf, hpc⟩ hhalt hdue
  refine ⟨?_, hrun, nnn, hf, hpc⟩
  have hjump : (s.setAgenda rest).jumpTo (zextAddr nnn) = s.setAgenda rest := by rw [hpc]; rfl
  calc step s = cycle (s.setAgenda rest) := step_eq_cycle hdue
    _ = exec (.jp nnn) (s.setAgenda rest) := cycle_of_decode_ok ⟨hrun, hhalt⟩ hf (decode_encode _)
    _ = .next ((s.setAgenda rest).jumpTo (zextAddr nnn)) := (Effect.jp nnn).exec_eq
    _ = .next (s.setAgenda rest) := by rw [hjump]

end Sys2Proof.Machine
end

section
/-! PROOFS. The steps of the tick and the host, and reset (40_fetch_cycle.md R137, 10_state.md R33, R40 to R42,
70_reset_and_hazards.md R280 to R282). -/

namespace Sys2Proof.Machine

/-! ### The step that an event names -/

theorem step_eq_perform {s : State} {e : Event} {rest : List Event} (h : s.env.agenda = e :: rest) :
    step s = perform e (s.setAgenda rest) := by
  simp [step, nextStep, h]

/-- A change of the environment leaves the CORE. -/
theorem State.sameCore_env (s : State) (e : Env) : s.sameCore { s with env := e } :=
  ⟨rfl, fun _ => rfl⟩

theorem tick_of_running {s : State} (h : s.status = .running) :
    tick s = { s with DT := countDown s.DT, ST := countDown s.ST } :=
  if_pos h

theorem tick_of_not_running {s : State} (h : s.status ≠ .running) : tick s = s :=
  if_neg h

theorem redrawClear_of_running {s : State} (h : s.status = .running) : redrawClear s = { s with redraw := false } :=
  if_pos h

theorem redrawClear_of_not_running {s : State} (h : s.status ≠ .running) : redrawClear s = s :=
  if_neg h

theorem countDown_toNat (v : Byte) : (countDown v).toNat = v.toNat - 1 := by
  by_cases h : v = 0
  · simp [countDown, h]
  · have hv : v.toNat ≠ 0 := fun e => h (BitVec.eq_of_toNat_eq e)
    have hlt := v.isLt
    rw [countDown, if_neg h, BitVec.toNat_sub]
    simp
    omega

/-- Settles O11: without a reset, a step of a machine that is not running changes a port or nothing. -/
theorem frozenUnlessReset : Obligations.FrozenUnlessReset := by
  intro s hn hreset
  cases ha : s.env.agenda with
  | nil => exact ⟨_, (step_eq_cycle (.inl ⟨ha, rfl⟩)).trans (cycle_of_not_running hn), s.sameCore_env _⟩
  | cons e rest =>
    rw [step_eq_perform ha]
    cases e with
    | cycle => exact ⟨_, cycle_of_not_running hn, s.sameCore_env _⟩
    | tick => exact ⟨_, congrArg Host.Outcome.next (tick_of_not_running (s := s.setAgenda rest) hn), s.sameCore_env _⟩
    | redrawClear =>
      exact ⟨_, congrArg Host.Outcome.next (redrawClear_of_not_running (s := s.setAgenda rest) hn), s.sameCore_env _⟩
    | reset image => exact absurd ha (hreset image rest)
    | setKeys | offerRandom | setHalt => exact ⟨_, rfl, s.sameCore_env _⟩

/-- Settles O12: the tick counts both timers down, and a count of zero stays. -/
theorem tickTakesOneOffEachTimer : Obligations.TickTakesOneOffEachTimer := by
  intro s rest hrun ha
  have hstep : step s = .next (tick (s.setAgenda rest)) := step_eq_perform ha
  rw [tick_of_running (s := s.setAgenda rest) hrun] at hstep
  exact ⟨_, hstep, countDown_toNat s.DT, countDown_toNat s.ST, rfl, fun _ => rfl⟩

/-- Settles O14: each of the four actions is a step that writes one field. -/
theorem redrawIsClearedByTheHost : Obligations.RedrawIsClearedByTheHost := by
  refine ⟨fun s rest hrun ha => ?_, fun s keys rest ha => ?_, fun s r rest ha => ?_, fun s level rest ha => ?_⟩
  · have hstep : step s = .next (redrawClear (s.setAgenda rest)) := step_eq_perform ha
    rw [redrawClear_of_running (s := s.setAgenda rest) hrun] at hstep
    exact ⟨_, hstep, rfl, fun _ => rfl⟩
  · exact ⟨_, step_eq_perform ha, s.sameCore_env _, fun _ => rfl, rfl⟩
  · exact ⟨_, step_eq_perform ha, s.sameCore_env _, rfl⟩
  · exact ⟨_, step_eq_perform ha, s.sameCore_env _, rfl⟩

/-! ### Reset -/

/-- The state that a reset with an image makes, with the environment of the state before. -/
def resetState (image : Image) (s : State) : State :=
  { State.reset with mem := Memory.writeBytes State.reset.mem Config.progBase image, env := s.env }

theorem resetWith_of_le {image : Image} (h : image.length ≤ 3584) (s : State) :
    resetWith image s = .next (resetState image s) := by
  simp [resetWith, resetState, Image.wellFormed, h]

theorem resetWith_of_gt {image : Image} (h : 3584 < image.length) (s : State) :
    resetWith image s = .fault .loadError := by
  simp [resetWith, Image.wellFormed, h]

theorem fontTable_length : fontTable.length = 80 := rfl

/-- The glyphs stand at 0x050 up. -/
theorem resetByte_glyph (k : Nat) (h : k < fontTable.length) : resetByte (0x050 + k) = fontTable[k] := by
  rw [resetByte, if_pos (Nat.le_add_right _ _), Nat.add_sub_cancel_left, List.getD_eq_getElem _ _ h]

theorem resetByte_eq_zero {a : Nat} (h : a < 0x050 ∨ 0x09F < a) : resetByte a = 0x00 := by
  by_cases ha : Config.fontBase ≤ a
  · have hlen : fontTable.length ≤ a - Config.fontBase := by
      simp only [fontTable_length, Config.fontBase] at *; omega
    rw [resetByte, if_pos ha, List.getD_eq_default _ _ hlen]
  · exact if_neg ha

/-- The memory that a reset makes, outside the image, reads as the reset contents. -/
theorem resetState_read_outside {image : Image} {a : Nat} (h : a < 0x200 ∨ 0x200 + image.length ≤ a) (s : State) :
    (resetState image s).mem.read a = resetByte a :=
  Memory.read_writeBytes_outside _ _ _ _ h

theorem resetState_wf {image : Image} (h : image.length ≤ 3584) (s : State) : (resetState image s).mem.wf = true :=
  Memory.wf_writeBytes (by simp only [Config.progBase, Config.memSize]; omega) reset_mem_wf

theorem reset_getV (r : Reg) : State.reset.getV r = 0x00 := by
  simp [State.getV, State.reset]

theorem reset_stack (k : Fin 16) : State.reset.stack[k] = 0x0000 := by
  simp [State.reset]

/-- Settles O18: each field is the one that the reset state is written with. -/
theorem resetStateIsAsTheSpecSays : Obligations.ResetStateIsAsTheSpecSays :=
  ⟨rfl, rfl, fun _ h => resetByte_eq_zero h, ⟨fontTable_length, resetByte_glyph⟩, reset_getV, rfl, reset_stack, rfl,
    rfl, Framebuffer.pixel_clear, rfl, rfl, rfl, fun k => by simp [State.key, State.reset, Env.reset], rfl⟩

/-- Settles O15: the load check is a bound on the image's length, and the empty image leaves the reset contents, in
which a word at 0x0200 is zero. -/
theorem resetIsDefinedUpTo3584Bytes : Obligations.ResetIsDefinedUpTo3584Bytes := by
  refine ⟨fun image s => ⟨fun ⟨t, ht⟩ => ?_, fun h => ⟨_, resetWith_of_le h s⟩⟩,
    fun image s h => resetWith_of_gt h s, fun s => ?_⟩
  · by_contra hlen
    rw [resetWith_of_gt (Nat.not_le.mp hlen) s] at ht
    cases ht
  · have hlegal : pcLegal (resetState [] s).pc = true :=
      (by decide : pcLegal 0x0200 = true)
    refine ⟨resetState [] s, resetWith_of_le (by simp) s, ⟨fontTable_length, resetByte_glyph⟩,
      fun _ h => resetByte_eq_zero h, ?_, by decide⟩
    calc (resetState [] s).fetch = some (wordOfBytes (resetByte 0x200) (resetByte 0x201)) :=
          State.fetch_of_legal hlegal
      _ = some 0x0000 := by rw [resetByte_eq_zero (by decide), resetByte_eq_zero (by decide)]; rfl

/-- Settles O16: the step is the reset, whose memory is the image written over the reset contents. -/
theorem hostResetLoadsTheImage : Obligations.HostResetLoadsTheImage := by
  intro s image rest ha hlen
  have hstep : step s = .next (resetState image (s.setAgenda rest)) :=
    (step_eq_perform ha).trans (resetWith_of_le hlen _)
  exact ⟨_, hstep, rfl, rfl, fun k hk => Memory.read_writeBytes_at _ _ _ k hk,
    fun a h => resetState_read_outside h _, resetState_wf hlen _, reset_getV, rfl, reset_stack, rfl, rfl,
    Framebuffer.pixel_clear, rfl, rfl, rfl, rfl⟩

/-! ### Which steps have a next state -/

theorem exec_next (i : Instr) (s : State) : ∃ t, exec i s = .next t := by
  obtain ⟨t, ht⟩ := exists_effect i s
  exact ⟨t, ht.exec_eq⟩

/-- A cycle has a next state: it keeps the machine, stops it, faults, or executes an instruction. -/
theorem cycle_next (s : State) : ∃ t, cycle s = .next t := by
  by_cases hrun : s.status = .running
  · cases hh : s.env.haltReq with
    | true => exact ⟨_, cycle_of_haltReq hrun hh⟩
    | false =>
      cases hf : s.fetch with
      | none => exact ⟨_, cycle_of_fetch_none ⟨hrun, hh⟩ hf⟩
      | some w =>
        cases hd : decode w with
        | error e => exact ⟨_, cycle_of_decode_error ⟨hrun, hh⟩ hf hd⟩
        | ok i => rw [cycle_of_decode_ok ⟨hrun, hh⟩ hf hd]; exact exec_next i s
  · exact ⟨s, cycle_of_not_running hrun⟩

/-- A step has a next state, or is a reset with an overlong image and has none. -/
theorem step_next_or_loadError (s : State) :
    (∃ t, step s = .next t) ∧ (∀ image rest, s.env.agenda = .reset image :: rest → image.length ≤ 3584) ∨
    step s = .fault .loadError ∧ ∃ image rest, s.env.agenda = .reset image :: rest ∧ 3584 < image.length := by
  cases ha : s.env.agenda with
  | nil =>
    obtain ⟨t, ht⟩ := cycle_next (s.setAgenda [])
    exact .inl ⟨⟨t, (step_eq_cycle (.inl ⟨ha, rfl⟩)).trans ht⟩, nofun⟩
  | cons e rest =>
    rw [step_eq_perform ha]
    cases e with
    | cycle => exact .inl ⟨cycle_next _, nofun⟩
    | reset image =>
      rcases Nat.lt_or_ge 3584 image.length with hlen | hlen
      · exact .inr ⟨resetWith_of_gt hlen _, image, rest, rfl, hlen⟩
      · refine .inl ⟨⟨_, resetWith_of_le hlen _⟩, fun image' rest' he => ?_⟩
        cases he
        exact hlen
    | _ => exact .inl ⟨⟨_, rfl⟩, nofun⟩

/-- Settles O17: a step that is no reset with an overlong image has a next state, since every instruction has one. -/
theorem onlyAnOverlongImageIsALoadError : Obligations.OnlyAnOverlongImageIsALoadError := by
  refine ⟨fun s f => ⟨fun h => ?_, ?_⟩, exec_next, fun s r h => ?_⟩
  · rcases step_next_or_loadError s with ⟨⟨t, ht⟩, -⟩ | ⟨hfault, image, rest, ha, hlen⟩
    · rw [ht] at h; cases h
    · rw [hfault] at h; cases h
      exact ⟨image, rest, ha, hlen, rfl⟩
  · rintro ⟨image, rest, ha, hlen, rfl⟩
    exact (step_eq_perform ha).trans (resetWith_of_gt hlen _)
  · rcases step_next_or_loadError s with ⟨⟨t, ht⟩, -⟩ | ⟨hfault, -⟩
    · rw [ht] at h; cases h
    · rw [hfault] at h; cases h

end Sys2Proof.Machine
end

section
/-! PROOFS. What every step keeps: the memory's canonical form, the live calls and `pc`, the error record
(10_state.md R27, R35, R36). -/

namespace Sys2Proof.Machine

/-! ### An invariant is kept by every step -/

/-- A property is kept by every step when it does not look at what the tick and the host change without a reset, holds
after every reset, is kept by a halt, a fatal error of the fetch or the decoder, and by every instruction that was
fetched and executed. -/
theorem step_keeps {P : State → Prop}
    (hcongr : ∀ {s t : State}, P s → t.mem = s.mem → t.stack = s.stack → t.sp = s.sp → t.pc = s.pc →
      t.status = s.status → t.err = s.err → P t)
    (hreset : ∀ image s, image.length ≤ 3584 → P (resetState image s))
    (hhalt : ∀ {s : State}, P s → s.status = .running → P { s with status := .stopped })
    (hfatal : ∀ {s : State} {c : ErrCause} (w : Word), P s →
      c = .fetchFault ∨ c = .unknownInstruction → P (s.fatal c w))
    (hexec : ∀ {s t : State} {i : Instr}, P s → s.status = .running → pcLegal s.pc = true → exec i s = .next t → P t)
    {s t : State} (hs : P s) (hstep : step s = .next t) : P t := by
  rcases step_cases hstep with ⟨l, -, hc⟩ | ⟨hm, hst, hsp, hpc, hstat, herr⟩ | ⟨image, hlen, e, rfl⟩
  · have hs' : P (s.setAgenda l) := hcongr hs rfl rfl rfl rfl rfl rfl
    rcases cycle_cases hc with
      ⟨-, rfl⟩ | ⟨hrun, -, rfl⟩ | ⟨-, -, rfl⟩ | ⟨-, w, -, -, -, rfl⟩ | ⟨⟨hrun, -⟩, w, i, hf, -, he⟩
    · exact hs'
    · exact hhalt hs' hrun
    · exact hfatal _ hs' (.inl rfl)
    · exact hfatal _ hs' (.inr rfl)
    · exact hexec hs' hrun (State.fetch_eq_some hf).1 he
  · exact hcongr hs hm hst hsp hpc hstat herr
  · exact hreset image { s with env := e } hlen

/-! ### The canonical form of the memory -/

/-- An instruction keeps the memory, or stores bytes through the range check. -/
theorem exec_keeps_wf {i : Instr} {s t : State} (hs : s.mem.wf = true) (h : exec i s = .next t) : t.mem.wf = true := by
  rcases exec_cases i s t h with ⟨c, -, -, -, rfl⟩ | ⟨-, -, hm⟩ | ⟨bytes, hr, rfl, -⟩
  · exact hs
  · exact hm ▸ hs
  · have hw : s.memWrite (s.ea 0) bytes = some { s with mem := s.mem.writeBytes (s.ea 0) bytes } := if_pos hr
    rw [State.advance_mem]
    exact State.memWrite_wf hw hs

/-- Settles O21: only an instruction and a reset write memory, and both stay inside the 4096 bytes. -/
theorem stepKeepsMemoryCanonical : Obligations.StepKeepsMemoryCanonical := by
  intro s t hs hstep
  refine step_keeps (P := fun s => s.mem.wf = true) ?_ ?_ ?_ ?_ ?_ hs hstep
  · intro s t hs hm _ _ _ _ _
    exact hm ▸ hs
  · exact fun image s hlen => resetState_wf hlen s
  · exact fun hs _ => hs
  · exact fun _ hs _ => hs
  · exact fun hs _ _ he => exec_keeps_wf hs he

/-! ### The live calls and the bound of `pc` -/

theorem toNat_add_le (a b : Word) : (a + b).toNat ≤ a.toNat + b.toNat := by
  rw [BitVec.toNat_add]; exact Nat.mod_le _ _

theorem pcLegal_le {pc : Word} (h : pcLegal pc = true) : pc.toNat ≤ 0xFFE := by
  obtain ⟨-, -, hle⟩ := pcLegal_iff.mp h
  exact hle

/-- The instruction after a legal address, or the one after that, is at most at 0x1002. -/
theorem pc_add_le {pc k : Word} (hpc : pc.toNat ≤ 0xFFE) (hk : k.toNat ≤ 4) : (pc + k).toNat ≤ 0x10FE :=
  (toNat_add_le pc k).trans (by omega)

theorem zextAddr_le (nnn : Addr) : (zextAddr nnn).toNat ≤ 0xFFF := by
  rw [zextAddr_toNat]; exact Nat.le_of_lt_succ nnn.isLt

theorem zextByte_le (v : Byte) : (zextByte v).toNat ≤ 0xFF := by
  rw [zextByte_toNat]; exact Nat.le_of_lt_succ v.isLt

/-- An instruction at a legal address, with legal return addresses, leaves `pc` at most 0x10FE: the largest is that of
`Bnnn`, 0xFFF + 0xFF. -/
theorem Effect.pc_le {i : Instr} {s t : State} (h : Effect s i t) (hs : s.flowOk) (hpc : s.pc.toNat ≤ 0xFFE) :
    t.pc.toNat ≤ 0x10FE := by
  have hnext : (s.pc + 2).toNat ≤ 0x10FE := pc_add_le hpc (by decide)
  have hskip (c : Bool) : (s.skipIf c).pc.toNat ≤ 0x10FE := by
    rw [State.skipIf_pc]
    split
    · exact pc_add_le hpc (by decide)
    · exact hnext
  cases h with
  | fatal | keyWait => exact hs.bound
  | jp nnn | call nnn => exact (zextAddr_le nnn).trans (by decide)
  | jpV0 nnn => exact (toNat_add_le _ _).trans (Nat.add_le_add (zextAddr_le nnn) (zextByte_le _))
  | ret h =>
    have htop := hs.calls ⟨s.sp.val - 1, by omega⟩ (Nat.sub_lt h Nat.one_pos)
    exact pc_add_le (pcLegal_le htop) (by decide)
  | seImm | sneImm | seReg | sneReg | skp | sknp => exact hskip _
  | _ => exact hnext

/-- What an instruction does to the call stack: nothing, a call's push of `pc`, or a return's pop. -/
theorem Effect.stack_cases {i : Instr} {s t : State} (h : Effect s i t) :
    (t.stack = s.stack ∧ t.sp = s.sp) ∨
    (∃ nnn, ∃ hlt : s.sp.val < 16, i = .call nnn ∧ t.stack = s.stack.set s.sp.val s.pc ∧ t.sp.val = s.sp.val + 1) ∨
    (i = .ret ∧ t.stack = s.stack ∧ t.sp.val = s.sp.val - 1) := by
  cases h with
  | call nnn h => exact .inr (.inl ⟨nnn, h, rfl, rfl, rfl⟩)
  | ret h => exact .inr (.inr ⟨rfl, rfl, rfl⟩)
  | _ => exact .inl ⟨rfl, rfl⟩

/-- An instruction at a legal address keeps the live return addresses legal: a call pushes that address. -/
theorem Effect.calls_legal {i : Instr} {s t : State} (h : Effect s i t) (hs : s.flowOk) (hpc : pcLegal s.pc = true)
    (k : Fin 16) (hk : k.val < t.sp.val) : pcLegal t.stack[k] = true := by
  rcases h.stack_cases with ⟨hstack, hsp⟩ | ⟨nnn, hlt, -, hstack, hsp⟩ | ⟨-, hstack, hsp⟩
  · rw [hsp] at hk; rw [hstack]; exact hs.calls k hk
  · rw [hstack]
    by_cases hkt : k.val = s.sp.val
    · simpa [hkt] using hpc
    · have hold : (s.stack.set s.sp.val s.pc)[k] = s.stack[k] := Vector.getElem_set_ne _ _ (Ne.symm hkt)
      rw [hold]; exact hs.calls k (by omega)
  · rw [hstack]; exact hs.calls k (by omega)

theorem resetState_flowOk (image : Image) (s : State) : (resetState image s).flowOk :=
  ⟨fun k hk => absurd hk (Nat.not_lt_zero k.val), (by decide : (0x0200 : Word).toNat ≤ 0x10FE)⟩

/-- Settles O22: an instruction that was fetched stands at a legal address, so a call pushes a legal one and every
target stays below the bound; nothing else moves `pc` or the stack but a reset. -/
theorem stepKeepsCallsAndPcInRange : Obligations.StepKeepsCallsAndPcInRange := by
  intro s t hs hstep
  refine step_keeps (P := State.flowOk) ?_ ?_ ?_ ?_ ?_ hs hstep
  · intro s t hs _ hst hsp hpc _ _
    exact ⟨fun k hk => hst ▸ hs.calls k (hsp ▸ hk), hpc ▸ hs.bound⟩
  · exact fun image s _ => resetState_flowOk image s
  · exact fun hs _ => ⟨hs.calls, hs.bound⟩
  · exact fun _ hs _ => ⟨hs.calls, hs.bound⟩
  · intro s t i hs _ hpc he
    have heff := exec_eq_next_iff.mp he
    exact ⟨heff.calls_legal hs hpc, heff.pc_le hs (pcLegal_le hpc)⟩

/-! ### The error record -/

/-- Taking a fatal error that is a cause writes a record true to the status. -/
theorem State.recordOk_fatal (s : State) {c : ErrCause} (hc : c ≠ .none) (w : Word) : (s.fatal c w).recordOk :=
  ⟨fun h => absurd rfl h, fun _ => ⟨hc, rfl, rfl⟩⟩

/-- A machine that is not faulted and has a zero record is true to its status. -/
theorem State.recordOk_of_clean {s : State} (hst : s.status ≠ .faulted) (herr : s.err = .zero) : s.recordOk :=
  ⟨fun _ => herr, fun h => absurd h hst⟩

theorem exec_keeps_recordOk {i : Instr} {s t : State} (hs : s.recordOk) (hrun : s.status = .running)
    (h : exec i s = .next t) : t.recordOk := by
  have hnf : s.status ≠ .faulted := by rw [hrun]; decide
  rcases exec_cases i s t h with ⟨c, hc, -, -, rfl⟩ | ⟨hst, herr, -⟩ | ⟨bytes, -, rfl, -⟩
  · exact s.recordOk_fatal hc _
  · exact State.recordOk_of_clean (hst ▸ hnf) (herr.trans (hs.clean hnf))
  · exact State.recordOk_of_clean hnf (hs.clean hnf)

/-- Settles O23: the record is written with the status `Faulted`, and only then. -/
theorem stepKeepsTheErrorRecord : Obligations.StepKeepsTheErrorRecord := by
  intro s t hs hstep
  refine step_keeps (P := State.recordOk) ?_ ?_ ?_ ?_ ?_ hs hstep
  · intro s t hs _ _ _ hpc hst herr
    exact ⟨fun h => herr ▸ hs.clean (hst ▸ h), fun h => by rw [herr, hpc]; exact hs.taken (hst ▸ h)⟩
  · exact fun image s _ => State.recordOk_of_clean (by decide : Status.running ≠ .faulted) rfl
  · intro s hs hrun
    exact State.recordOk_of_clean (by decide : Status.stopped ≠ .faulted) (hs.clean (by rw [hrun]; decide))
  · rintro s c w - (rfl | rfl) <;> exact s.recordOk_fatal (by decide) w
  · exact fun hs hrun _ he => exec_keeps_recordOk hs hrun he

/-- Settles O24: the reset memory lists no cell, the stack is empty, `pc` is 0x0200, and the record is zero. -/
theorem resetMeetsTheInvariants : Obligations.ResetMeetsTheInvariants :=
  ⟨reset_mem_wf, resetState_flowOk [] State.reset, State.recordOk_of_clean (by decide) rfl⟩

end Sys2Proof.Machine
end

section
/-! PROOFS. What instructions leave alone, how they fault, and how they move `pc` (10_state.md sections 1, 2, 4, 6, 7,
20_memory.md R60, 60_exceptions.md R250, R255, R256). -/

namespace Sys2Proof.Machine

/-! ### Memory -/

/-- Settles O25: an instruction that changes memory is a store, whose bytes stand at `I` up and pass the range check. -/
theorem onlyTheStoresChangeMemory : Obligations.OnlyTheStoresChangeMemory := by
  intro i s t a h hne
  rcases exec_cases i s t h with ⟨c, -, -, -, rfl⟩ | ⟨-, -, hm⟩ | ⟨bytes, hr, rfl, hi⟩
  · exact absurd rfl hne
  · exact absurd (by rw [hm]) hne
  · have hin : s.ea 0 ≤ a ∧ a < s.ea 0 + bytes.length := by
      by_contra hout
      exact hne (Memory.read_writeBytes_outside _ _ _ _ (by omega))
    have hle := rangeOk_iff.mp hr
    simp only [State.ea, Config.memSize] at hin hle ⊢
    refine ⟨by omega, by omega, ?_⟩
    rcases hi with ⟨x, rfl, hlen⟩ | ⟨x, rfl, hlen⟩
    · exact .inl ⟨x, rfl, by omega⟩
    · exact .inr ⟨x, rfl, by omega⟩

/-! ### The other fields -/

/-- Settles O26: by the rules, each instruction leaves every field that it is not named for. -/
theorem onlyTheNamedInstructionsWriteEachRegister : Obligations.OnlyTheNamedInstructionsWriteEachRegister := by
  intro i s t hexec
  have hfb {p : Prop} (h : s.fb ≠ s.fb ∨ s.redraw ≠ s.redraw) : p := h.elim (absurd rfl) (absurd rfl)
  cases exec_eq_next_iff.mp hexec with
  | ldI | addI | ldF =>
    exact ⟨fun _ => by simp, absurd rfl, absurd rfl, absurd rfl, absurd rfl, hfb, absurd rfl⟩
  | call nnn h =>
    exact ⟨absurd rfl, fun _ => ⟨nnn, rfl⟩, fun _ => .inl ⟨nnn, rfl⟩, absurd rfl, absurd rfl, hfb, absurd rfl⟩
  | ret h => exact ⟨absurd rfl, absurd rfl, fun _ => .inr rfl, absurd rfl, absurd rfl, hfb, absurd rfl⟩
  | ldDTVx x => exact ⟨absurd rfl, absurd rfl, absurd rfl, fun _ => ⟨x, rfl⟩, absurd rfl, hfb, absurd rfl⟩
  | ldSTVx x => exact ⟨absurd rfl, absurd rfl, absurd rfl, absurd rfl, fun _ => ⟨x, rfl⟩, hfb, absurd rfl⟩
  | cls => exact ⟨absurd rfl, absurd rfl, absurd rfl, absurd rfl, absurd rfl, fun _ => .inl rfl, absurd rfl⟩
  | drw x y n h =>
    exact ⟨absurd rfl, absurd rfl, absurd rfl, absurd rfl, absurd rfl, fun _ => .inr ⟨x, y, n, rfl⟩, absurd rfl⟩
  | rnd x kk => exact ⟨absurd rfl, absurd rfl, absurd rfl, absurd rfl, absurd rfl, hfb, fun _ => ⟨x, kk, rfl⟩⟩
  | _ => exact ⟨absurd rfl, absurd rfl, absurd rfl, absurd rfl, absurd rfl, hfb, absurd rfl⟩

/-! ### The flag register -/

theorem State.eq_vf_of_writeResult {s : State} {x : Reg} {r : Byte}
    (h : (s.writeResult x r).getV Reg.vf ≠ s.getV Reg.vf) : x = Reg.vf := by
  by_contra hx
  exact h (by rw [State.getV_writeResult, if_neg (Ne.symm hx)])

theorem State.getV_vf_writeResultFlag (s : State) (x : Reg) (r : Byte) (f : Bool) :
    (s.writeResultFlag x r f).getV Reg.vf = flagByte f := by
  rw [State.getV_writeResultFlag, if_pos rfl]

/-- What `Dxyn` leaves in the registers: the collision in VF, written last. -/
theorem State.getV_drawn_sprite (s : State) (x y : Reg) (n : Fin 16) (r : Reg) :
    ((s.setFb (s.drawing x y n).fb).setVF (s.drawing x y n).hit).raiseRedraw.advance.getV r =
      if r = Reg.vf then flagByte (s.drawing x y n).hit else s.getV r := by
  rw [State.getV_advance, State.getV_raiseRedraw, State.getV_setVF, State.getV_setFb]

/-- Settles O27: by the rules, VF changes with a register write to 0xF, with a flag, or with a load of all sixteen
registers. -/
theorem onlyFlagsAndDestinationsWriteVF : Obligations.OnlyFlagsAndDestinationsWriteVF := by
  intro i s t hexec hne
  cases exec_eq_next_iff.mp hexec with
  | addReg x y | subReg x y | shr x y | subnReg x y | shl x y =>
    rw [State.getV_vf_writeResultFlag]
    exact .inl ⟨.inl ⟨x, y, by simp⟩, flagByte_cases _⟩
  | drw x y n =>
    rw [State.getV_drawn_sprite, if_pos rfl]
    exact .inl ⟨.inr ⟨x, y, n, rfl⟩, flagByte_cases _⟩
  | ldImm x kk | addImm x kk | rnd x kk =>
    obtain rfl := State.eq_vf_of_writeResult hne
    exact .inr (.inl ⟨kk, by simp⟩)
  | ldReg x y | orReg x y | andReg x y | xorReg x y =>
    obtain rfl := State.eq_vf_of_writeResult hne
    exact .inr (.inr (.inl ⟨y, by simp⟩))
  | ldVxDT x | ldVxK x =>
    obtain rfl := State.eq_vf_of_writeResult hne
    simp
  | loadRegs x h =>
    have hx : x = Reg.vf := by
      by_contra hx
      have hlt : ¬ Reg.vf.val < x.val + 1 := fun hlt => hx (Fin.ext (by have := x.isLt; simp at hlt; simp; omega))
      refine hne ?_
      rw [State.getV_advance, State.getV_loadV, Memory.readBytes_length, if_neg hlt]
    subst hx
    simp
  | _ => exact absurd rfl hne

/-! ### Faults -/

/-- Settles O28: an instruction that faults does so by one of the eight conditions, and its fatal error writes the
status and the record alone; one that does not fault leaves both. -/
theorem instructionFaultsArePrecise : Obligations.InstructionFaultsArePrecise := by
  intro i s t hrun hexec
  cases exec_eq_next_iff.mp hexec with
  | @fatal _ c hf =>
    right
    have hrec := s.faultedFrom_fatal c (encode i)
    cases hf with
    | call nnn h => exact .inl ⟨⟨nnn, rfl⟩, h, hrec⟩
    | ret h => exact .inr (.inl ⟨rfl, h, hrec⟩)
    | drw x y n h0 h => exact .inr (.inr (.inl ⟨.inl ⟨x, y, n, rfl, h0, h⟩, hrec⟩))
    | ldB x h => exact .inr (.inr (.inl ⟨.inr (.inl ⟨x, rfl, h⟩), hrec⟩))
    | storeRegs x h => exact .inr (.inr (.inl ⟨.inr (.inr ⟨x, .inl rfl, h⟩), hrec⟩))
    | loadRegs x h => exact .inr (.inr (.inl ⟨.inr (.inr ⟨x, .inr rfl, h⟩), hrec⟩))
    | skp x h => exact .inr (.inr (.inr ⟨⟨x, .inl rfl, h⟩, hrec⟩))
    | sknp x h => exact .inr (.inr (.inr ⟨⟨x, .inr rfl, h⟩, hrec⟩))
  | _ => exact .inl ⟨hrun, rfl⟩

/-- Settles O31: the codes and the classes are the arms of the two definitions. -/
theorem errorCodesAreTheTables : Obligations.ErrorCodesAreTheTables := by
  unfold Obligations.ErrorCodesAreTheTables
  decide

/-! ### The program counter -/

theorem State.skipIf_pc_of_iff (s : State) {c : Bool} {p : Prop} [Decidable p] (h : c = true ↔ p) :
    (s.skipIf c).pc = s.pc + (if p then 4 else 2) := by
  rw [State.skipIf_pc, ← apply_ite (s.pc + ·)]
  simp only [h]

theorem State.skipIf_pc_of_not_iff (s : State) {c : Bool} {p : Prop} [Decidable p] (h : c = true ↔ ¬p) :
    (s.skipIf c).pc = s.pc + (if p then 2 else 4) := by
  rw [s.skipIf_pc_of_iff h, ite_not]

/-- The target of `Bnnn` is at most 0xFFF + 0xFF, so the 16-bit sum is the sum. -/
theorem toNat_jpV0_target (nnn : Addr) (v : Byte) : (zextAddr nnn + zextByte v).toNat = nnn.toNat + v.toNat := by
  have hn := nnn.isLt
  have hv := v.isLt
  rw [BitVec.toNat_add, zextAddr_toNat, zextByte_toNat, Nat.mod_eq_of_lt (by omega)]

/-- Settles O29: each rule's state has the `pc` of the instruction's row. -/
theorem eachInstructionAdvancesPcAsItsRuleSays : Obligations.EachInstructionAdvancesPcAsItsRuleSays := by
  intro i s t hrun hexec
  cases exec_eq_next_iff.mp hexec with
  | fatal => exact .inl ⟨rfl, rfl⟩
  | jp nnn | call nnn => exact .inr ⟨hrun, zextAddr_toNat nnn⟩
  | jpV0 nnn => exact .inr ⟨hrun, toNat_jpV0_target nnn _⟩
  | ret h => exact .inr ⟨hrun, by omega, rfl⟩
  | seImm | seReg => exact .inr ⟨hrun, s.skipIf_pc_of_iff beq_iff_eq⟩
  | sneImm | sneReg => exact .inr ⟨hrun, s.skipIf_pc_of_not_iff bne_iff_ne⟩
  | skp x k h => exact .inr ⟨hrun, k, h.symm, s.skipIf_pc_of_iff Iff.rfl⟩
  | sknp x k h => exact .inr ⟨hrun, k, h.symm, s.skipIf_pc_of_not_iff (by simp)⟩
  | keyWait x h => exact .inr ⟨hrun, (if_neg fun ⟨k, hk⟩ => by simp [h k] at hk).symm⟩
  | ldVxK x k h => exact .inr ⟨hrun, (if_pos ⟨k, h⟩).symm⟩
  | _ => exact .inr ⟨hrun, rfl⟩

/-! ### The sound timer and the redraw flag -/

/-- The state with `ST` and `redraw` replaced, the two fields that no instruction reads. -/
def State.withSoundRedraw (s : State) (st : Byte) (rd : Bool) : State := { s with ST := st, redraw := rd }

/-- Whether an instruction's outcome from `s` and from `s` with `ST` and `redraw` replaced agree but for those two, each
of which is either written alike or left. -/
def State.agreesBut (s : State) (st : Byte) (rd : Bool) (t u : State) : Prop :=
  u = { t with ST := u.ST, redraw := u.redraw } ∧ (u.ST = t.ST ∨ u.ST = st ∧ t.ST = s.ST) ∧
    (u.redraw = t.redraw ∨ u.redraw = rd ∧ t.redraw = s.redraw)

theorem Faults.withSoundRedraw {s : State} {i : Instr} {c : ErrCause} (h : Faults s i c) (st : Byte) (rd : Bool) :
    Faults (s.withSoundRedraw st rd) i c := by
  cases h <;> (constructor <;> assumption)

/-- The rule that applies to a state applies to it with `ST` and `redraw` replaced, to the same effect. -/
theorem Effect.withSoundRedraw {s t : State} {i : Instr} (h : Effect s i t) (st : Byte) (rd : Bool) :
    ∃ u, Effect (s.withSoundRedraw st rd) i u ∧ s.agreesBut st rd t u := by
  cases h with
  | fatal h => exact ⟨_, .fatal (h.withSoundRedraw st rd), rfl, .inr ⟨rfl, rfl⟩, .inr ⟨rfl, rfl⟩⟩
  | cls => exact ⟨_, .cls, rfl, .inr ⟨rfl, rfl⟩, .inl rfl⟩
  | drw x y n h => exact ⟨_, .drw x y n h, rfl, .inr ⟨rfl, rfl⟩, .inl rfl⟩
  | ldSTVx x => exact ⟨_, .ldSTVx x, rfl, .inl rfl, .inr ⟨rfl, rfl⟩⟩
  | ldVxK x k h hlow => exact ⟨_, .ldVxK x k h hlow, rfl, .inr ⟨rfl, rfl⟩, .inr ⟨rfl, rfl⟩⟩
  | keyWait x h => exact ⟨_, .keyWait x h, rfl, .inr ⟨rfl, rfl⟩, .inr ⟨rfl, rfl⟩⟩
  | _ => exact ⟨_, by constructor <;> assumption, rfl, .inr ⟨rfl, rfl⟩, .inr ⟨rfl, rfl⟩⟩

/-- Settles O30: the same rule applies in both runs. -/
theorem soundTimerAndRedrawAreNeverRead : Obligations.SoundTimerAndRedrawAreNeverRead := by
  intro i s st rd
  obtain ⟨t, ht⟩ := exists_effect i s
  obtain ⟨u, hu, hagree⟩ := ht.withSoundRedraw st rd
  exact ⟨t, u, ht.exec_eq, hu.exec_eq, hagree⟩

end Sys2Proof.Machine
end

section
/-! PROOFS. Data accesses and the call stack (20_memory.md R70, R71, 10_state.md R29, R30). -/

namespace Sys2Proof.Machine

/-! ### Data accesses -/

theorem rangeOk_eq_false_iff {a n : Nat} : rangeOk a n = false ↔ 0 < n ∧ 0xFFF < a + n - 1 := by
  simp only [rangeOk, decide_eq_false_iff_not]; omega

/-- Settles O19: a read is the range check and then the bytes from the address up. -/
theorem memReadIsTheBytesOrAFault : Obligations.MemReadIsTheBytesOrAFault := by
  intro s a n
  rw [← rangeOk_eq_false_iff]
  rcases s.memRead_cases a n with ⟨hr, he⟩ | ⟨hr, he⟩ <;> rw [hr, he]
  · refine ⟨by simp, fun bytes h => ?_⟩
    cases h
    exact ⟨s.mem.readBytes_length a n, s.mem.readBytes_getElem a n⟩
  · exact ⟨by simp, nofun⟩

/-- Settles O20: a store is the range check and then the write of the bytes to memory. -/
theorem memWriteIsReadBack : Obligations.MemWriteIsReadBack := by
  intro s a bytes
  rw [← rangeOk_eq_false_iff]
  rcases s.memWrite_cases a bytes with ⟨hr, he⟩ | ⟨hr, he⟩ <;> rw [hr, he]
  · refine ⟨by simp, fun t h => ?_⟩
    cases h
    exact ⟨s.mem.read_writeBytes_at a bytes, s.mem.read_writeBytes_outside a bytes, rfl⟩
  · exact ⟨by simp, nofun⟩

/-! ### The call stack -/

theorem getElem_stack_set (st : Vector Word 16) (n : Nat) (hn : n < 16) (v : Word) (k : Fin 16) :
    (st.set n v)[k] = if k.val = n then v else st[k] := by
  have h := Vector.getElem_set (xs := st) (x := v) hn k.isLt
  simpa [eq_comm (a := n)] using h

/-- A list of pushes succeeds when its entries fit above those in use. -/
theorem State.foldlM_push_isSome (vs : List Word) (s : State) :
    (vs.foldlM State.push s).isSome = true ↔ s.sp.val + vs.length ≤ 16 := by
  induction vs generalizing s with
  | nil =>
    have := s.sp.isLt
    simp only [List.foldlM_nil, List.length_nil]
    exact iff_of_true rfl (by omega)
  | cons v vs ih =>
    rw [List.foldlM_cons, List.length_cons]
    rcases s.push_cases v with ⟨h, he⟩ | ⟨h, he⟩ <;> rw [he]
    · refine (ih _).trans ?_
      show s.sp.val + 1 + vs.length ≤ 16 ↔ _
      omega
    · exact iff_of_false (by simp) (by omega)

/-- Settles O32: a push and a pop are one check of `sp` and then one move of it. -/
theorem pushAndPopAreBounded : Obligations.PushAndPopAreBounded := by
  refine ⟨fun s v => ?_, fun s => ?_, fun s vs => State.foldlM_push_isSome vs s⟩
  · rcases s.push_cases v with ⟨h, he⟩ | ⟨h, he⟩ <;> rw [he]
    · refine ⟨iff_of_false (by simp) (by omega), fun t ht => ?_⟩
      cases ht
      exact ⟨rfl, rfl, getElem_stack_set s.stack s.sp.val h v⟩
    · exact ⟨iff_of_true rfl h, nofun⟩
  · rcases s.pop_cases with ⟨h, he⟩ | ⟨h, he⟩ <;> rw [he]
    · refine ⟨iff_of_false (by simp) (by omega), fun a t ht => ?_⟩
      cases ht
      have hlt : s.sp.val - 1 < 16 := by omega
      exact ⟨rfl, rfl, hlt, rfl⟩
    · exact ⟨iff_of_true rfl h, nofun⟩

end Sys2Proof.Machine
end

section
/-! PROOFS. Control transfer (41_flow.md R150 to R154, R157, R158). -/

namespace Sys2Proof.Machine

/-- An instruction on its fault condition ends in the fatal error of that cause, with its own word. -/
theorem Faults.spec {s : State} {i : Instr} {c : ErrCause} (h : Faults s i c) :
    ∃ t, exec i s = .next t ∧ s.faultedFrom t c c.cls (encode i) :=
  ⟨_, h.exec_eq, s.faultedFrom_fatal c (encode i)⟩

theorem State.changesOnlyPc_jumpTo (s : State) (target : Word) : s.changesOnlyPc (s.jumpTo target) :=
  ⟨rfl, fun _ => rfl⟩

/-! ### Jumps -/

/-- Settles O33: the jump writes `pc` alone, and the next fetch checks it. -/
theorem jumpSetsPcToTheAddress : Obligations.JumpSetsPcToTheAddress := by
  intro nnn s
  refine ⟨decode_encode (.jp nnn), _, (Effect.jp nnn).exec_eq, zextAddr_toNat nnn, s.changesOnlyPc_jumpTo _,
    fun hbad => ?_⟩
  rw [State.fetch_eq_none_iff, pcLegal_eq_false_iff, State.jumpTo_pc, zextAddr_toNat]
  omega

/-- Settles O34: the jump writes `pc` alone, and the sum stays below 65536. -/
theorem indexedJumpAddsV0 : Obligations.IndexedJumpAddsV0 := by
  intro nnn s
  exact ⟨decode_encode (.jpV0 nnn), _, (Effect.jpV0 nnn).exec_eq, toNat_jpV0_target nnn _, s.changesOnlyPc_jumpTo _⟩

/-! ### Skips on registers -/

theorem decodeSkipReg_of_ne {w : Word} (i : Instr) (h : nField w ≠ 0) : decodeSkipReg w i = .error (.unknown w) :=
  if_neg h

/-- Settles O36: both words decode to skips, one on the test `V[x] == V[y]` and one on `V[x] != V[y]`, when their low
nibble is zero. -/
theorem skipsOnARegister : Obligations.SkipsOnARegister := by
  intro x y s
  refine ⟨⟨decode_encode (.seReg x y), decode_encode (.sneReg x y)⟩, fun n hn => ?_, ?_, ?_⟩
  · have hne (op : BitVec 4) : nField (wordXYN op x y n) ≠ 0 := by rwa [nField_wordXYN]
    exact ⟨by simp [decode, decodeSkipReg_of_ne _ (hne _)], by simp [decode, decodeSkipReg_of_ne _ (hne _)]⟩
  · exact exec_skip_spec (Effect.seReg x y).exec_eq beq_iff_eq
  · exact exec_skip_spec (Effect.sneReg x y).exec_eq bne_iff_ne

/-! ### Calls and returns -/

/-- Settles O37: a call is a push of `pc` and a jump, or the overflow fault. -/
theorem callPushesItsOwnAddress : Obligations.CallPushesItsOwnAddress := by
  intro nnn s
  refine ⟨decode_encode (.call nnn), fun h => ?_, fun h => (Faults.call nnn h).spec⟩
  refine ⟨_, (Effect.call nnn h).exec_eq, ?_, fun k hk => ?_, rfl, zextAddr_toNat nnn, rfl, fun _ => rfl⟩
  · exact Vector.getElem_set_self h
  · exact (getElem_stack_set s.stack s.sp.val h s.pc k).trans (if_neg hk)

/-- Settles O38: a return is a pop and a jump, or the underflow fault. -/
theorem returnLandsAfterTheCall : Obligations.ReturnLandsAfterTheCall := by
  refine ⟨decode_encode .ret, fun s => ⟨fun h => ?_, fun h => (Faults.ret h).spec⟩⟩
  have hlt : s.sp.val - 1 < 16 := by omega
  exact ⟨_, (Effect.ret h).exec_eq, ⟨hlt, rfl⟩, rfl, rfl, fun _ => rfl⟩

/-- Settles O39: the entry that the call pushed is below `sp` during the balanced work, so it is the one that the return
pops. -/
theorem callAndReturnPairUp : Obligations.CallAndReturnPairUp := by
  intro nnn s t t' hlt hcall hsp hstack
  rw [(Effect.call nnn hlt).exec_eq] at hcall
  cases hcall
  have hsp' : t'.sp.val = s.sp.val + 1 := congrArg Fin.val hsp
  have hentry : t'.stack[s.sp.val] = s.pc :=
    (hstack ⟨s.sp.val, hlt⟩ (Nat.lt_succ_self _)).trans (Vector.getElem_set_self hlt)
  refine ⟨_, (Effect.ret (by omega)).exec_eq, ?_, Fin.ext ?_⟩
  · simp [hsp', hentry]
  · simp [hsp']

end Sys2Proof.Machine
end

section
/-! PROOFS. Register loads and the ALU (42_alu.md R172 to R181). -/

namespace Sys2Proof.Machine

/-! ### Copy and logic -/

/-- Settles O41: each of the four is a write to `V[x]` without a flag. -/
theorem copyAndLogicWriteOnlyVx : Obligations.CopyAndLogicWriteOnlyVx := by
  intro x y s
  refine ⟨⟨decode_encode (.ldReg x y), decode_encode (.orReg x y), decode_encode (.andReg x y),
    decode_encode (.xorReg x y)⟩, exec_writeResult_spec (Effect.ldReg x y).exec_eq, ?_, ?_, ?_⟩
  · obtain ⟨t, ht, hx, frame⟩ := exec_writeResult_spec (Effect.orReg (s := s) x y).exec_eq
    exact ⟨t, ht, fun k => by rw [hx, BitVec.getLsbD_or], frame⟩
  · obtain ⟨t, ht, hx, frame⟩ := exec_writeResult_spec (Effect.andReg (s := s) x y).exec_eq
    exact ⟨t, ht, fun k => by rw [hx, BitVec.getLsbD_and], frame⟩
  · obtain ⟨t, ht, hx, frame⟩ := exec_writeResult_spec (Effect.xorReg (s := s) x y).exec_eq
    exact ⟨t, ht, fun k => by rw [hx, BitVec.getLsbD_xor], frame⟩

/-! ### Results with a flag -/

/-- An instruction that means a write of `r` to `V[x]` and of the flag `f` leaves `r` in a destination other than VF,
the flag in VF, every other register as it was, moves `pc` by 2, and changes nothing else. -/
theorem exec_writeResultFlag_spec {i : Instr} {s : State} {x : Reg} {r : Byte} {f : Bool}
    (hi : exec i s = .next (s.writeResultFlag x r f)) :
    ∃ t, exec i s = .next t ∧ (x ≠ Reg.vf → t.getV x = r) ∧ t.getV Reg.vf = flagByte f ∧
      s.keepsVBut t [x, Reg.vf] ∧ t.pc = s.pc + 2 ∧ s.changesOnlyVPc t := by
  refine ⟨_, hi, fun hx => ?_, s.getV_vf_writeResultFlag x r f, s.keepsVBut_writeResultFlag x r f, rfl, rfl,
    fun _ => rfl⟩
  rw [State.getV_writeResultFlag, if_neg hx, if_pos rfl]

theorem flagByte_decide (p : Prop) [Decidable p] : flagByte (decide p) = if p then 0x01 else 0x00 := by
  by_cases h : p <;> simp [flagByte, h]

/-- Settles O42: the result is the sum, which a byte holds modulo 256, and the flag is the carry. -/
theorem addWritesSumAndCarry : Obligations.AddWritesSumAndCarry := by
  intro x y s
  obtain ⟨t, ht, hx, hvf, frame⟩ := exec_writeResultFlag_spec (Effect.addReg (s := s) x y).exec_eq
  exact ⟨decode_encode (.addReg x y), t, ht, fun h => by rw [hx h, BitVec.toNat_add],
    hvf.trans (flagByte_decide _), frame⟩

theorem toNat_sub_byte (a b : Byte) : (a - b).toNat = (a.toNat + 256 - b.toNat) % 256 := by
  have := b.isLt
  rw [BitVec.toNat_sub]
  omega

/-- Settles O43: the results are the two differences, and the flag is that the subtrahend is not the larger. -/
theorem subtractWritesDifferenceAndNotBorrow : Obligations.SubtractWritesDifferenceAndNotBorrow := by
  intro x y s
  refine ⟨⟨decode_encode (.subReg x y), decode_encode (.subnReg x y)⟩, ?_, ?_⟩
  · obtain ⟨t, ht, hx, hvf, frame⟩ := exec_writeResultFlag_spec (Effect.subReg (s := s) x y).exec_eq
    exact ⟨t, ht, fun h => by rw [hx h, toNat_sub_byte], hvf.trans (flagByte_decide _), frame⟩
  · obtain ⟨t, ht, hx, hvf, frame⟩ := exec_writeResultFlag_spec (Effect.subnReg (s := s) x y).exec_eq
    exact ⟨t, ht, fun h => by rw [hx h, toNat_sub_byte], hvf.trans (flagByte_decide _), frame⟩

/-- Settles O44: a shift by one halves or doubles the byte, and the flag is the bit that leaves it. -/
theorem shiftsMoveOneBitIntoVF : Obligations.ShiftsMoveOneBitIntoVF := by
  intro x y s
  refine ⟨⟨decode_encode (.shr x y), decode_encode (.shl x y)⟩, ?_, ?_⟩
  · obtain ⟨t, ht, hx, hvf, frame⟩ := exec_writeResultFlag_spec (Effect.shr (s := s) x y).exec_eq
    refine ⟨t, ht, fun h => ?_, by rw [hvf, flagByte_lowBit], frame⟩
    rw [hx h, BitVec.toNat_ushiftRight, Nat.shiftRight_eq_div_pow, Nat.pow_one]
  · obtain ⟨t, ht, hx, hvf, frame⟩ := exec_writeResultFlag_spec (Effect.shl (s := s) x y).exec_eq
    refine ⟨t, ht, fun h => ?_, by rw [hvf, flagByte_highBit], frame⟩
    rw [hx h, BitVec.toNat_shiftLeft, Nat.shiftLeft_eq, Nat.pow_one, Nat.mul_comm]

/-! ### The random byte -/

/-- Settles O45: the instruction is a write to `V[x]` in the state after the draw, and a draw takes the oldest offered
byte or a free one. -/
theorem randomIsOneDrawUnderTheMask : Obligations.RandomIsOneDrawUnderTheMask := by
  intro x kk s
  have hx : (s.drawn.writeResult x (s.randomByte &&& kk)).getV x = s.randomByte &&& kk := by
    rw [State.getV_writeResult, if_pos rfl]
  refine ⟨decode_encode (.rnd x kk), _, s.randomByte, (Effect.rnd x kk).exec_eq, hx, fun k hk => ?_, ?_,
    s.drawn.keepsVBut_writeResult x _, rfl, rfl, fun _ => rfl⟩
  · rw [hx, BitVec.getLsbD_and, hk, Bool.and_false]
  · rcases s.drawn_cases with ⟨r, rest, hr, hbyte, hd⟩ | ⟨hr, hbyte, hd⟩
    · exact .inl ⟨rest, hbyte ▸ hr, by rw [State.writeResult_env, hd]⟩
    · exact .inr ⟨hr, hbyte, by rw [State.writeResult_env, hd]⟩

end Sys2Proof.Machine
end

section
/-! PROOFS. The address register and the memory instructions (43_index_memory.md R201 to R205, 20_memory.md R76). -/

namespace Sys2Proof.Machine

/-! ### The address register -/

/-- The glyph of a byte is at most at 0x50 + 5 * 0xFF, so the 16-bit sum is the sum. -/
theorem glyphAddr_toNat (v : Byte) : (glyphAddr v).toNat = 0x50 + 5 * v.toNat := by
  have hv := v.isLt
  rw [glyphAddr, BitVec.toNat_add, BitVec.toNat_mul, zextByte_toNat]
  simp
  omega

/-- Settles O47: both instructions set `I`, one to a sum that a word holds modulo 65536 and one to the glyph's
address. -/
theorem addressRegisterArithmetic : Obligations.AddressRegisterArithmetic := by
  intro x s
  refine ⟨⟨decode_encode (.addI x), decode_encode (.ldF x)⟩, ?_, ?_⟩
  · obtain ⟨t, ht, hI, frame⟩ := exec_setI_spec (Effect.addI (s := s) x).exec_eq
    exact ⟨t, ht, by rw [hI, BitVec.toNat_add, zextByte_toNat], frame⟩
  · obtain ⟨t, ht, hI, frame⟩ := exec_setI_spec (Effect.ldF (s := s) x).exec_eq
    exact ⟨t, ht, by rw [hI, glyphAddr_toNat], frame⟩

/-! ### Stores at `I` -/

/-- An instruction that means a store of `k + 1` bytes at `I` and an advance leaves the bytes there, every other byte as
it was, moves `pc` by 2, and changes nothing else. -/
theorem exec_store_spec {i : Instr} {s : State} {bytes : List Byte} {k : Nat} (hlen : bytes.length = k + 1)
    (hi : exec i s = .next ({ s with mem := s.mem.writeBytes (s.ea 0) bytes } : State).advance) :
    ∃ t, exec i s = .next t ∧ (∀ j (h : j < bytes.length), t.mem.read (s.ea j) = bytes[j]) ∧
      (∀ a, a < s.ea 0 ∨ s.ea k < a → t.mem.read a = s.mem.read a) ∧ t.pc = s.pc + 2 ∧
      t = { s with mem := t.mem, pc := t.pc } := by
  refine ⟨_, hi, fun j h => ?_, fun a ha => Memory.read_writeBytes_outside _ _ _ _ ?_, rfl, rfl⟩
  · have hea : s.ea j = s.ea 0 + j := by simp [State.ea]
    rw [hea]
    exact Memory.read_writeBytes_at _ _ _ j h
  · simp only [State.ea, hlen] at ha ⊢; omega

/-- The three digits of a byte, each in a byte, make the byte. -/
theorem bcdDigits_spec (v : Byte) :
    ∃ h d o : Byte, bcdDigits v = [h, d, o] ∧ 100 * h.toNat + 10 * d.toNat + o.toNat = v.toNat ∧ h.toNat ≤ 2 ∧
      d.toNat ≤ 9 ∧ o.toNat ≤ 9 := by
  have hv := v.isLt
  refine ⟨_, _, _, rfl, ?_⟩
  simp only [BitVec.toNat_ofNat]
  omega

/-- Settles O48: `Fx33` stores the three digits, or the range check fails. -/
theorem bcdStoresThreeDigits : Obligations.BcdStoresThreeDigits := by
  intro x s
  refine ⟨decode_encode (.ldB x), fun hr => ?_, fun hr => (Faults.ldB x hr).spec⟩
  obtain ⟨t, ht, hread, frame⟩ := exec_store_spec (bcdDigits_length _) (Effect.ldB x hr).exec_eq
  obtain ⟨h, d, o, hdigits, hvalue⟩ := bcdDigits_spec (s.getV x)
  rw [hdigits] at hread
  exact ⟨t, ht, ⟨h, d, o, hread 0 (by simp), hread 1 (by simp), hread 2 (by simp), hvalue⟩, frame⟩

/-- Settles O49: `Fx55` stores the registers up to `V[x]`, or the range check fails. -/
theorem blockStoreWritesV0ToVx : Obligations.BlockStoreWritesV0ToVx := by
  intro x s
  refine ⟨decode_encode (.storeRegs x), fun hr => ?_, fun hr => (Faults.storeRegs x hr).spec⟩
  obtain ⟨t, ht, hread, frame⟩ := exec_store_spec (s.regsUpTo_length x) (Effect.storeRegs x hr).exec_eq
  refine ⟨t, ht, fun k hk => ?_, frame⟩
  have hlt : k.val < (s.regsUpTo x).length := by rw [s.regsUpTo_length]; omega
  rw [hread k.val hlt, s.regsUpTo_getElem x k hlt]

/-! ### Loads from `I` -/

/-- A block load from `I` gives each register up to `V[x]` the byte of its place and leaves the others. -/
theorem State.getV_loadV_readBytes (s : State) (x k : Reg) :
    (s.loadV (s.mem.readBytes (s.ea 0) (x.val + 1))).getV k =
      if k.val ≤ x.val then s.mem.read (s.ea k.val) else s.getV k := by
  rw [State.getV_loadV, Memory.readBytes_length]
  by_cases hk : k.val ≤ x.val
  · have hlt : k.val < x.val + 1 := Nat.lt_succ_of_le hk
    rw [if_pos hk, if_pos hlt, List.getD_eq_getElem _ _ (by simpa using hlt), Memory.readBytes_getElem]
    simp [State.ea]
  · rw [if_neg hk, if_neg (by omega)]

/-- Settles O50: `Fx65` loads the registers up to `V[x]`, or the range check fails. -/
theorem blockLoadReadsV0ToVx : Obligations.BlockLoadReadsV0ToVx := by
  intro x s
  refine ⟨decode_encode (.loadRegs x), fun hr => ?_, fun hr => (Faults.loadRegs x hr).spec⟩
  exact ⟨_, (Effect.loadRegs x hr).exec_eq, fun k => s.getV_loadV_readBytes x k, rfl, rfl, fun _ => rfl⟩

/-! ### Stored registers read again -/

/-- After a block store the stored registers stand at `I` up. -/
theorem read_of_exec_storeRegs {x : Reg} {s t : State} (hr : s.ea x.val ≤ 0xFFF)
    (h : exec (.storeRegs x) s = .next t) (k : Reg) (hk : k.val ≤ x.val) : t.mem.read (s.ea k.val) = s.getV k := by
  obtain ⟨-, hstore, -⟩ := blockStoreWritesV0ToVx x s
  obtain ⟨u, hu, hread, -⟩ := hstore hr
  obtain rfl : u = t := by simpa [hu] using h
  exact hread k hk

/-- Settles O51: the load reads from the same addresses the bytes that the store left there. -/
theorem blockLoadUndoesBlockStore : Obligations.BlockLoadUndoesBlockStore := by
  intro x s t t' hr hstore hmem hI
  have hIs : t'.I = s.I := by
    rw [(Effect.storeRegs x hr).exec_eq] at hstore; cases hstore; exact hI
  have hea (k : Nat) : t'.ea k = s.ea k := by rw [State.ea, State.ea, hIs]
  refine ⟨_, (Effect.loadRegs x (by rw [hea]; exact hr)).exec_eq, fun k hk => ?_⟩
  rw [State.getV_advance, State.getV_loadV_readBytes, if_pos hk, hmem, hea]
  exact read_of_exec_storeRegs hr hstore k hk

/-- Settles O52: the fetch reads the two bytes that the store left at `pc`. -/
theorem storedCodeIsFetched : Obligations.StoredCodeIsFetched := by
  intro x k h s t t' hr hstore hk hmem hpc hlegal
  have hhi := read_of_exec_storeRegs hr hstore k (by omega)
  have hlo := read_of_exec_storeRegs hr hstore ⟨k.val + 1, h⟩ hk
  have hnext : s.ea k.val + 1 = s.ea (k.val + 1) := by simp [State.ea, Nat.add_assoc]
  rw [State.fetch_of_legal hlegal, Memory.wordAt, hmem, hpc, hnext, hhi, hlo]

end Sys2Proof.Machine
end

section
/-! PROOFS. The framebuffer instructions (44_display.md R220 to R222). -/

namespace Sys2Proof.Machine

/-- Settles O53: the framebuffer is replaced by the clear one and `redraw` is raised, whatever they were. -/
theorem clearTurnsEveryPixelOff : Obligations.ClearTurnsEveryPixelOff :=
  ⟨decode_encode .cls, fun _ => ⟨_, _, Effect.cls.exec_eq, Framebuffer.pixel_clear, rfl, rfl, rfl, fun _ => rfl,
    Effect.cls.exec_eq, rfl, rfl⟩⟩

/-! ### A drawn sprite -/

/-- Drawing XORs the sprite at `I` onto the pixels. -/
theorem State.drawing_pixel (s : State) (x y : Reg) (n : Fin 16) {px py : Nat} (hx : px < 64) (hy : py < 32) :
    (s.drawing x y n).fb.pixel px py =
      (s.fb.pixel px py ^^ s.spriteOver (s.getV x).toNat (s.getV y).toNat n.val px py) := by
  rw [State.drawing, Drawing.rows_pixel _ _ _ _ (by rw [Memory.readBytes_length]; omega) hx hy,
    State.rowsOver_readBytes]

/-- Drawing hits when a 1 bit of the sprite falls on a pixel that was on. -/
theorem State.drawing_hit (s : State) (x y : Reg) (n : Fin 16) :
    (s.drawing x y n).hit = true ↔ ∃ px < 64, ∃ py < 32, s.fb.pixel px py = true ∧
      s.spriteOver (s.getV x).toNat (s.getV y).toNat n.val px py = true := by
  rw [State.drawing, Drawing.rows_hit _ _ _ _ (by rw [Memory.readBytes_length]; omega)]
  simp [State.rowsOver_readBytes]

/-- The collision flag of a drawing, either way. -/
theorem State.flagByte_drawing_hit (s : State) (x y : Reg) (n : Fin 16) :
    flagByte (s.drawing x y n).hit = 0x01 ∧ (∃ px < 64, ∃ py < 32, s.fb.pixel px py = true ∧
        s.spriteOver (s.getV x).toNat (s.getV y).toNat n.val px py = true) ∨
      flagByte (s.drawing x y n).hit = 0x00 ∧ (∀ px < 64, ∀ py < 32, s.fb.pixel px py = true →
        s.spriteOver (s.getV x).toNat (s.getV y).toNat n.val px py = false) := by
  cases hh : (s.drawing x y n).hit with
  | true => exact .inl ⟨rfl, (s.drawing_hit x y n).mp hh⟩
  | false =>
    refine .inr ⟨rfl, fun px hx py hy hon => Bool.not_eq_true _ ▸ fun hover => ?_⟩
    exact absurd ((s.drawing_hit x y n).mpr ⟨px, hx, py, hy, hon, hover⟩) (by simp [hh])

/-- Settles O54: the rows of the sprite are XORed onto the pixels and VF is the collision, or the range check fails. -/
theorem drawXorsTheSprite : Obligations.DrawXorsTheSprite := by
  intro x y n s
  refine ⟨decode_encode (.drw x y n), fun hr => ?_, fun h0 hr => (Faults.drw x y n h0 hr).spec⟩
  refine ⟨_, (Effect.drw x y n hr).exec_eq, fun px hx py hy => s.drawing_pixel x y n hx hy, ?_, fun r hr => ?_, rfl,
    rfl, rfl, fun _ => rfl⟩
  · rw [State.getV_drawn_sprite, if_pos rfl]
    exact s.flagByte_drawing_hit x y n
  · rw [State.getV_drawn_sprite, if_neg (by simpa using hr)]

theorem flagByte_eq_one_iff {f : Bool} : flagByte f = 0x01 ↔ f = true := by cases f <;> decide

/-- The sprite's bits depend on `I` and its bytes. -/
theorem State.spriteOver_congr {s t : State} (hI : t.I = s.I) {n : Nat}
    (hmem : ∀ k, k < n → t.mem.read (s.ea k) = s.mem.read (s.ea k)) (x0 y0 px py : Nat) :
    t.spriteOver x0 y0 n px py = s.spriteOver x0 y0 n px py := by
  have hea (k : Nat) : t.ea k = s.ea k := by rw [State.ea, State.ea, hI]
  unfold State.spriteOver
  by_cases hk : (py + 32 - y0 % 32) % 32 < n
  · simp only [hea, hmem _ hk]
  · simp [hk]

/-- Settles O55: the second draw XORs the same bits onto the pixels of the first, which undoes it, and collides where
the first turned a pixel on. -/
theorem drawingTwiceRestoresTheFramebuffer : Obligations.DrawingTwiceRestoresTheFramebuffer := by
  intro x y n s t t' hr hdraw hfb hVx hVy hI hmem
  rw [(Effect.drw x y n hr).exec_eq] at hdraw
  cases hdraw
  have hr' : n.val = 0 ∨ t'.ea n.val - 1 ≤ 0xFFF := by rwa [State.ea, hI]
  have hover (px py : Nat) : t'.spriteOver (t'.getV x).toNat (t'.getV y).toNat n.val px py =
      s.spriteOver (s.getV x).toNat (s.getV y).toNat n.val px py := by
    rw [hVx, hVy, State.spriteOver_congr hI hmem]
  have hpixel {px py : Nat} (hx : px < 64) (hy : py < 32) : t'.fb.pixel px py =
      (s.fb.pixel px py ^^ s.spriteOver (s.getV x).toNat (s.getV y).toNat n.val px py) := by
    rw [hfb]; exact s.drawing_pixel x y n hx hy
  refine ⟨_, (Effect.drw x y n hr').exec_eq, Framebuffer.ext_pixel fun px hx py hy => ?_, ?_⟩
  · refine (t'.drawing_pixel x y n hx hy).trans ?_
    rw [hover, hpixel hx hy, Bool.xor_assoc, Bool.xor_self, Bool.xor_false]
  · rw [State.getV_drawn_sprite, if_pos rfl, flagByte_eq_one_iff, State.drawing_hit]
    refine exists_congr fun px => and_congr_right fun hx => exists_congr fun py => and_congr_right fun hy => ?_
    rw [hover, hpixel hx hy]
    cases s.fb.pixel px py <;> simp

end Sys2Proof.Machine
end

section
/-! PROOFS. The key and timer instructions (45_keys_timers.md R230 to R235). -/

namespace Sys2Proof.Machine

/-! ### Keys -/

/-- Settles O56: both instructions are skips on the level of the key that `V[x]` names, or the key index fault. -/
theorem keySkipsTestTheLevel : Obligations.KeySkipsTestTheLevel := by
  intro x s
  refine ⟨⟨decode_encode (.skp x), decode_encode (.sknp x)⟩, fun k hk => ⟨?_, ?_⟩,
    fun h => ⟨(Faults.skp x h).spec, (Faults.sknp x h).spec⟩⟩
  · exact exec_skip_spec (Effect.skp x k hk).exec_eq Iff.rfl
  · exact exec_skip_spec (Effect.sknp x k hk).exec_eq (by simp)

theorem keyByte_toNat (k : Fin 16) : (keyByte k).toNat = k.val := by
  have hk := k.isLt
  rw [keyByte, BitVec.toNat_ofNat, Nat.mod_eq_of_lt (by omega)]

/-- Settles O57: `Fx0A` leaves the state when no key is pressed, and otherwise writes the first pressed key to
`V[x]`. -/
theorem keyWaitTakesTheLowestPressedKey : Obligations.KeyWaitTakesTheLowestPressedKey := by
  intro x s
  refine ⟨decode_encode (.ldVxK x), fun h => (Effect.keyWait x h).exec_eq, fun k hk hlow => ?_⟩
  obtain ⟨t, ht, hx, frame⟩ := exec_writeResult_spec (Effect.ldVxK x k hk hlow).exec_eq
  exact ⟨t, ht, by rw [hx, keyByte_toNat], frame⟩

/-! ### Timers -/

/-- Settles O59: one instruction is a write to `V[x]`, the other two write one timer each. -/
theorem timerInstructionsMoveTheTimers : Obligations.TimerInstructionsMoveTheTimers := by
  intro x s
  exact ⟨⟨decode_encode (.ldVxDT x), decode_encode (.ldDTVx x), decode_encode (.ldSTVx x)⟩,
    exec_writeResult_spec (Effect.ldVxDT x).exec_eq, ⟨_, (Effect.ldDTVx x).exec_eq, rfl, fun _ => rfl⟩,
    ⟨_, (Effect.ldSTVx x).exec_eq, rfl, fun _ => rfl⟩⟩

end Sys2Proof.Machine
end

section
/-! PROOFS. The delay timer across steps (40_fetch_cycle.md R138). -/

namespace Sys2Proof.Machine

/-! ### The delay timer across one step -/

/-- An instruction other than `Fx15` leaves the delay timer. -/
theorem exec_keeps_DT {i : Instr} {s t : State} (hi : ∀ x, i ≠ .ldDTVx x) (h : exec i s = .next t) : t.DT = s.DT := by
  obtain ⟨-, -, -, hDT, -⟩ := onlyTheNamedInstructionsWriteEachRegister i s t h
  by_contra hne
  obtain ⟨x, hx⟩ := hDT hne
  exact hi x hx

/-- A cycle of the engine leaves the delay timer unless it executes an `Fx15`. -/
theorem cycle_keeps_DT {s t : State} (hi : ∀ x, s.current ≠ some (.ldDTVx x)) (h : cycle s = .next t) :
    t.DT = s.DT := by
  rcases cycle_cases h with ⟨-, rfl⟩ | ⟨-, -, rfl⟩ | ⟨-, -, rfl⟩ | ⟨-, w, e, -, -, rfl⟩ | ⟨hs, w, i, hf, hd, he⟩
  · rfl
  · rfl
  · rfl
  · rfl
  · exact exec_keeps_DT (fun x hx => hi x (State.current_eq_some.mpr ⟨hs, w, hf, hx ▸ hd⟩)) he

/-- What a tick that is due takes off a timer. -/
def State.tickDrop (s : State) : Nat := if s.tickDue = true then 1 else 0

theorem State.tickDrop_eq_zero {s : State} (h : s.env.agenda.head? ≠ some .tick) : s.tickDrop = 0 := by
  simp [State.tickDrop, State.tickDue, h]

theorem tick_DT_toNat {s : State} {rest : List Event} (ha : s.env.agenda = .tick :: rest) :
    (tick (s.setAgenda rest)).DT.toNat = s.DT.toNat - s.tickDrop := by
  by_cases hrun : s.status = .running
  · rw [tick_of_running (s := s.setAgenda rest) hrun]
    simpa [State.tickDrop, State.tickDue, hrun, ha] using countDown_toNat s.DT
  · rw [tick_of_not_running (s := s.setAgenda rest) hrun]
    simp [State.tickDrop, State.tickDue, hrun]

/-- A step that is no reset and no cycle of an `Fx15` takes off the delay timer what a tick takes, or nothing. -/
theorem step_DT_toNat {s t : State} (hno : s.delayWriteDue = false) (h : step s = .next t) :
    t.DT.toNat = s.DT.toNat - s.tickDrop := by
  obtain ⟨hfx15, hreset⟩ := State.not_delayWriteDue hno
  have hcycle {rest : List Event} (hdue : s.cycleDue rest) (htick : s.env.agenda.head? ≠ some .tick) :
      t.DT.toNat = s.DT.toNat - s.tickDrop := by
    rw [step_eq_cycle hdue] at h
    rw [State.tickDrop_eq_zero htick, cycle_keeps_DT (s := s.setAgenda rest) (fun x hx => hfx15 x ⟨⟨rest, hdue⟩, hx⟩) h]
    rfl
  cases ha : s.env.agenda with
  | nil => exact hcycle (.inl ⟨ha, rfl⟩) (by simp [ha])
  | cons e rest =>
    have htick (hne : e ≠ .tick) : s.env.agenda.head? ≠ some .tick := by simpa [ha] using hne
    rw [step_eq_perform ha] at h
    cases e with
    | cycle => exact hcycle (.inr ha) (htick nofun)
    | tick => cases h; exact tick_DT_toNat ha
    | redrawClear =>
      cases h
      rw [State.tickDrop_eq_zero (htick nofun), redrawClear]
      split <;> rfl
    | reset image => exact absurd ha (hreset image rest)
    | setKeys | offerRandom | setHalt =>
      cases h
      rw [State.tickDrop_eq_zero (htick nofun)]
      rfl

/-! ### The delay timer across a run -/

theorem runSteps_succ_eq_next {n : Nat} {s u : State} (h : runSteps (n + 1) s = .next u) :
    ∃ t, step s = .next t ∧ runSteps n t = .next u := by
  cases hs : step s with
  | next t => exact ⟨t, rfl, (runSteps_succ hs).symm.trans h⟩
  | fault f => simp [runSteps, hs] at h
  | refused r => simp [runSteps, hs] at h

/-- A run without a reset and without the cycle of an `Fx15` takes off the delay timer its ticks. -/
theorem runSteps_DT_toNat (n : Nat) {s u : State} (hno : s.noDelayWriteIn n = true) (h : runSteps n s = .next u) :
    u.DT.toNat = s.DT.toNat - s.ticksIn n := by
  induction n generalizing s with
  | zero => cases h; rfl
  | succ n ih =>
    obtain ⟨t, hst, htu⟩ := runSteps_succ_eq_next h
    rw [State.noDelayWriteIn_succ hst, Bool.and_eq_true, Bool.not_eq_true'] at hno
    have hfirst := step_DT_toNat hno.1 hst
    have hticks : s.ticksIn (n + 1) = s.tickDrop + t.ticksIn n := State.ticksIn_succ hst
    rw [ih hno.2 htu, hfirst, hticks, Nat.sub_sub]

/-- On a running machine with `n` ticks due, `n` steps are those ticks. -/
theorem runSteps_ticks (n : Nat) {s : State} {rest : List Event} (hrun : s.status = .running)
    (ha : s.env.agenda = List.replicate n .tick ++ rest) :
    ∃ u, runSteps n s = .next u ∧ s.ticksIn n = n ∧ u.DT.toNat = s.DT.toNat - n ∧ u.env.agenda = rest := by
  induction n generalizing s with
  | zero => exact ⟨s, rfl, rfl, rfl, by simpa using ha⟩
  | succ n ih =>
    have ha' : s.env.agenda = .tick :: (List.replicate n .tick ++ rest) := by
      rw [ha, List.replicate_succ, List.cons_append]
    obtain ⟨t, hst, hDT, -, ht, -⟩ := tickTakesOneOffEachTimer s _ hrun ha'
    obtain ⟨u, hu, hticks, huDT, hrest⟩ := ih (s := t) (by rw [ht]; exact hrun) (by rw [ht]; rfl)
    have hdue : s.tickDue = true := by simp [State.tickDue, hrun, ha']
    refine ⟨u, (runSteps_succ hst).trans hu, ?_, ?_, hrest⟩
    · rw [State.ticksIn_succ hst, if_pos hdue, hticks, Nat.add_comm]
    · rw [huDT, hDT, Nat.sub_sub, Nat.add_comm]

/-! ### A value written by `Fx15` and read by `Fx07` -/

/-- `Fx07` copies the delay timer to its register. -/
theorem exec_ldVxDT_getV (y : Reg) (s : State) :
    ∃ v, exec (.ldVxDT y) s = .next v ∧ v.getV y = s.DT ∧ v.env = s.env := by
  refine ⟨_, (Effect.ldVxDT y).exec_eq, ?_, rfl⟩
  rw [State.getV_writeResult, if_pos rfl]

/-- Settles O13: `Fx15` sets the delay timer, the steps between take off their ticks, and `Fx07` reads what is left;
ticks in a row are such steps. -/
theorem delayTimerReadsBackLessTheTicks : Obligations.DelayTimerReadsBackLessTheTicks := by
  refine ⟨fun s x y hs => ?_, fun s x y n rest hrun ha => ?_⟩
  · obtain ⟨l, -, hstep⟩ := step_of_runsNext hs
    refine ⟨_, hstep.trans (Effect.ldDTVx x).exec_eq, fun n u hno hu hread => ?_⟩
    obtain ⟨l', -, hstep'⟩ := step_of_runsNext hread
    obtain ⟨v, hv, hy, -⟩ := exec_ldVxDT_getV y (u.setAgenda l')
    refine ⟨v, hstep'.trans hv, ?_⟩
    rw [hy]
    exact runSteps_DT_toNat (u := u) n hno hu
  · obtain ⟨u, hu, hticks, hDT, hrest⟩ :=
      runSteps_ticks n (s := ({ s with DT := s.getV x } : State).advance) hrun ha
    obtain ⟨v, hv, hy, henv⟩ := exec_ldVxDT_getV y u
    exact ⟨_, u, v, (Effect.ldDTVx x).exec_eq, hu, hticks, hv, by rw [hy]; exact hDT, by rw [henv]; exact hrest⟩

end Sys2Proof.Machine
end
